-- ==== Sys2Proof/Word.lean ====
section
/-! DEFINITION. The word types of the block: the 32-bit bus word, the byte, and the two wide registers. -/

namespace Sys2Proof

/-- A 32-bit bus word or command word; `w[31]` is the most significant bit (R10). -/
abbrev Word := BitVec 32

/-- A message byte or one 8-bit character (R12). -/
abbrev Byte := BitVec 8

/-- The state register S, 161 bits (R20). Sequence bit `S[i]` of R8 is `getMsbD i`: index 0 is the most
significant bit (R23). -/
abbrev SReg := BitVec 161

/-- The digest register D, 160 bits (R22), in the same bit order as S. -/
abbrev DReg := BitVec 160

end Sys2Proof
end

