-- ==== Sys2Proof/Machine/Params.lean ====
section
/-! DEFINITION. The named constants of R6 and R7, in one place so that an audit changes them in one edit (N2, I4,
log 14): tap positions, lengths, round counts, buffer sizes, and SEED. -/

namespace Sys2Proof.Machine

/-- The injection and extraction point (R6, R20). -/
def injectIndex : Nat := 160

/-- DIGEST_BITS (R6). -/
def digestBitCount : Nat := 160

/-- ROUNDS_EDGE: the k = 0 pass, the first bit and the last bit (R6). -/
def roundsEdge : Nat := 324

/-- ROUNDS_INTERIOR: every other bit (R6). -/
def roundsInterior : Nat := 162

/-- ROUNDS_SQUEEZE: per output bit (R6). -/
def roundsSqueeze : Nat := 1

/-- SQUEEZE_COUNT (R6). -/
def squeezeCount : Nat := 160

/-- SEED_DIGITS (R6). -/
def seedDigitCount : Nat := 100

/-- STATE_BITS, the number of seed bits produced (R6). -/
def stateBits : Nat := 161

/-- HEXIN_MAX: characters of the input buffer (R7). -/
def hexinMax : Nat := 64

/-- HEXOUT_MAX: characters of the output buffer (R7). -/
def hexoutMax : Nat := 40

/-- WINDOW_BYTES (R7). -/
def windowBytes : Nat := 256

/-! The taps as indices of S: `Pi` is `S[i]`, `Qi` is `S[80+i]` (R8, R103). -/

def tapP0 : Nat := 0
def tapP1 : Nat := 1
def tapP11 : Nat := 11
def tapP48 : Nat := 48
def tapP50 : Nat := 50
def tapP55 : Nat := 55
def tapQ0 : Nat := 80 + 0
def tapQ1 : Nat := 80 + 1
def tapQ23 : Nat := 80 + 23
def tapQ25 : Nat := 80 + 25
def tapQ41 : Nat := 80 + 41

/-- SEED, the hardwired constant (R35, R102), as the 161-bit integer whose most significant bit is SEED[0]. -/
def SEED : SReg := 0x487ED5110B4611A62633145C06E0E68948127044#161

end Sys2Proof.Machine
end

