-- ==== Sys2Proof/Syntax.lean ====
section
/-! DEFINITION. The command set as syntax: one constructor per row of the opcode map (R87). -/

namespace Sys2Proof

/-- The eleven commands (R87). Counts are natural numbers, bounded by `Instr.WellFormed`; the message byte is its
bits; BIT and LAST are single bits (R91). -/
inductive Instr where
  /-- NOP, format N (R220). -/
  | nop
  /-- INIT, format N (R107). -/
  | init
  /-- ADV r, format R: ROUNDS (R82, R108). -/
  | adv (rounds : Nat)
  /-- XORIN b, format X: BIT (R83, R109). -/
  | xorin (bit : Bool)
  /-- SQZ1, format N (R147). -/
  | sqz1
  /-- ABSB b [, last], format A: BIT and LAST (R84, R144). -/
  | absb (bit last : Bool)
  /-- ABSY y [, last], format Y: BYTE and LAST (R85, R145). -/
  | absy (byte : Byte) (last : Bool)
  /-- FINAL, format N (R146). -/
  | final
  /-- TOHEX n, format L: NBITS (R86, R182). -/
  | tohex (nbits : Nat)
  /-- HEXIN, format N (R183). -/
  | hexin
  /-- CLRERR, format N (R221). -/
  | clrerr
  deriving DecidableEq, Repr

end Sys2Proof
end

