-- ==== Sys2Proof/Machine/State.lean ====
section
/-! DEFINITION. The state of the block and of the host's queue, the reset state, and the reasons a step can stop. -/

namespace Sys2Proof.Machine

/-- The orchestrator's position (R28). The codes 5, 6 and 7 are never held, so they have no constructor. Log 9. -/
inductive Phase where
  /-- 0: no digest computation started since reset. -/
  | idle
  /-- 1: S = SEED was loaded, no message bit absorbed. -/
  | ready
  /-- 2: at least one bit absorbed, the last bit not flagged. -/
  | absorbing
  /-- 3: the bit flagged LAST was absorbed. -/
  | absorbed
  /-- 4: FINAL completed. -/
  | squeezed
  deriving DecidableEq, Repr

/-- The error codes of STATUS.ERR (R241). The codes 6 to 15 are never written (R32), so they have no constructor.
Log 9. -/
inductive ErrCode where
  /-- 0, ERR_NONE: no error since the last CLRERR or reset. -/
  | none
  /-- 1, ERR_BUSY (R243). -/
  | busy
  /-- 2, ERR_BADOP (R244). -/
  | badop
  /-- 3, ERR_SEQ (R245). -/
  | seq
  /-- 4, ERR_BADLEN (R246). -/
  | badlen
  /-- 5, ERR_BADHEX (R247). -/
  | badhex
  deriving DecidableEq, Repr

/-- An accepted command that has not completed (R34): its word, as R283 stores it. `delay` is the model's own: the
number of host turns before the engine completes it (the open LATENCY, log 3). -/
structure Pending where
  word : Word
  delay : Nat
  deriving DecidableEq, Repr

/-- One thing the outside does to the block (R13, R290). Addresses are host byte addresses (R50, log 1); widths are in
bytes. -/
inductive HostOp where
  /-- `MemWrite(addr, width, v)` (R11). -/
  | write (addr width : Nat) (v : Word)
  /-- `MemRead(addr, width)` (R11). -/
  | read (addr width : Nat)
  /-- `WAIT`: repeat `R 0x004` until BUSY is 0 (R92). -/
  | wait
  /-- The platform asserts the reset input (R280). -/
  | reset
  deriving DecidableEq, Repr

/-- Everything the spec gives the block (R36), and the model's own `delay` in `pending`, `hostOps`, `replies` and
`draws` (log 2, log 3, log 5). STATUS.BUSY is not stored a second time: it is 1 exactly while a command is pending
(R283, log 8). -/
structure State where
  /-- The state register S (R20). -/
  S : SReg
  /-- The digest register D (R22). -/
  D : DReg
  /-- The hex output buffer (R24). -/
  hexout : Vector Byte 40
  /-- HEXOUT_LEN (R24). -/
  hexoutLen : BitVec 7
  /-- The hex input buffer (R25). -/
  hexin : Vector Byte 64
  /-- HEXIN_LEN, any 32-bit value (R25). -/
  hexinLen : Word
  /-- The message bit counter (R26). -/
  bitcnt : BitVec 64
  /-- PHASE (R28). -/
  phase : Phase
  /-- DV: D holds the digest of the last FINAL (R30). -/
  dv : Bool
  /-- HV: HEXOUT renders D (R31). -/
  hv : Bool
  /-- ERR: the first error since the last CLRERR or reset (R32). -/
  err : ErrCode
  /-- The pending command (R34). -/
  pending : Option Pending
  /-- MODEL: what the host does next, oldest first. Log 2. -/
  hostOps : List HostOp
  /-- MODEL: the byte address and the value of every read so far, newest first. Log 2. -/
  replies : List (Nat × Word)
  /-- MODEL: how many free values have been drawn. Log 5. -/
  draws : Nat
  deriving DecidableEq, Repr

/-- STATUS.BUSY: 1 from the acceptance of a command until its completion (R29, R283). -/
def State.busy (s : State) : Bool := s.pending.isSome

/-- Right after reset (R36): every register 0, PHASE = IDLE, nothing pending. The host queue, the replies and the draw
counter are the model's own and start empty (log 2, log 5). S is not SEED: INIT loads it (R282). -/
def State.reset : State where
  S := 0
  D := 0
  hexout := Vector.replicate 40 0
  hexoutLen := 0
  hexin := Vector.replicate 64 0
  hexinLen := 0
  bitcnt := 0
  phase := .idle
  dv := false
  hv := false
  err := .none
  pending := none
  hostOps := []
  replies := []
  draws := 0

/-- The bus errors (R52, R248): the access is refused and the model has no successor state in which it completed.
All are SAFE: the block itself changes no state on them. No command raises one. -/
inductive Fault where
  /-- Raised by a host access of a width other than 4 bytes. Safe. -/
  | busErrorWidth
  /-- Raised by a host access at an offset that is no multiple of 4. Safe. -/
  | busErrorMisaligned
  /-- Raised by a host access at an unmapped offset of the window (R51). Safe. -/
  | busErrorUnmapped
  /-- Raised by a host access outside the 256 bytes of the window (R50): no access of this block. Safe, log 7. -/
  | outsideWindow
  deriving DecidableEq, Repr

/-- Why a command would have no meaning. Every command of the table has one, so no arm of `exec` answers it. -/
inductive Refusal where
  /-- Raised by an arm of `exec` whose command has no meaning yet (none). Safe. -/
  | notModelled (mnemonic : String)
  deriving DecidableEq, Repr

end Sys2Proof.Machine
end

