-- ==== Sys2Proof/Machine/Ops.lean ====
section
/-! DEFINITION. The shared operations: bits of S, the round and `advance`, injection and squeezing, raising and
clearing an error, and the packing of registers into bus words. -/

namespace Sys2Proof.Machine

/-! ## Bit sequences (R8, R23) -/

/-- The bits of `x` in sequence order, index 0 (the most significant bit, R23) first. -/
def msbBits {n : Nat} (x : BitVec n) : List Bool := (List.range n).map x.getMsbD

/-- The register that holds the sequence `bits` (R23): each bit enters at the last index and moves the earlier ones
toward index 0, so a sequence of `n` bits fills it with its first bit at index 0. -/
def ofMsbBits (n : Nat) (bits : List Bool) : BitVec n := bits.foldl BitVec.shiftConcat 0#n

/-! ## The round (R103 to R106) -/

/-- The sub-register P = S[0..79] (R20). -/
def regP (S : SReg) : BitVec 80 := S.extractLsb' 81 80

/-- The sub-register Q = S[80..160] (R20). -/
def regQ (S : SReg) : BitVec 81 := S.extractLsb' 0 81

/-- Pf of R103. -/
def feedbackP (S : SReg) : Bool :=
  let p0 := S.getMsbD tapP0
  let p11 := S.getMsbD tapP11
  let p55 := S.getMsbD tapP55
  let q23 := S.getMsbD tapQ23
  (p0 && p11) ^^ (p0 && p55) ^^ (p11 && q23) ^^ (q23 && p55) ^^ q23 ^^ p55 ^^ true

/-- Qf of R103. -/
def feedbackQ (S : SReg) : Bool :=
  let q0 := S.getMsbD tapQ0
  let q25 := S.getMsbD tapQ25
  let q41 := S.getMsbD tapQ41
  let p48 := S.getMsbD tapP48
  (q25 && p48) ^^ (q25 && q41) ^^ (q0 && p48) ^^ (q0 && q41) ^^ q25 ^^ q41

/-- Lf of R103. -/
def feedbackL (S : SReg) : Bool := S.getMsbD tapP1 ^^ S.getMsbD tapQ1 ^^ S.getMsbD tapP50

/-- newP of R103. -/
def newP (S : SReg) : Bool := feedbackP S ^^ feedbackL S

/-- newQ of R103. -/
def newQ (S : SReg) : Bool := feedbackQ S ^^ feedbackL S

/-- One round (R104, R106): the feedback bits are taken from S before the round; then P and Q each shift one place
toward index 0, independently, and the new bits enter at their tails. -/
def nlfsrRound (S : SReg) : SReg := (regP S).shiftConcat (newP S) ++ (regQ S).shiftConcat (newQ S)

/-- `advance(S, r)`: the round applied `r` times (R105). -/
def advance (S : SReg) : Nat → SReg
  | 0 => S
  | r + 1 => nlfsrRound (advance S r)

/-- S[160] xor b (R109, R140): the injection of one bit. -/
def inject (b : Bool) (S : SReg) : SReg := S ^^^ (BitVec.ofBool b).setWidth 161

/-- S[160], the extraction point (R20, R141). -/
def extractionBit (S : SReg) : Bool := S.getMsbD injectIndex

/-- One squeeze step on S and D (R146, R147): a round, then S[160] enters D at its tail. -/
def squeezeStep (sd : SReg × DReg) : SReg × DReg :=
  let S' := advance sd.1 roundsSqueeze
  (S', sd.2.shiftConcat (extractionBit S'))

/-- `n` squeeze steps. -/
def squeezeSteps : Nat → SReg × DReg → SReg × DReg
  | 0, sd => sd
  | n + 1, sd => squeezeStep (squeezeSteps n sd)

/-! ## Errors (R240 to R251) -/

/-- ERR after `raise Error(code)`: the code if ERR was 0, else the first error is kept (R242). -/
def firstError (before code : ErrCode) : ErrCode :=
  match before with
  | .none => code
  | .busy | .badop | .seq | .badlen | .badhex => before

/-- `raise Error(code)` (R242): ERR takes the code only if it is 0, and nothing else changes. There is no trap, no
saved register and no mode (R240, R250): this is the whole of taking an error. -/
def raiseError (e : ErrCode) (s : State) : State := { s with err := firstError s.err e }

/-- The return from an error is CLRERR (R251): ERR <- 0. -/
def clearError (s : State) : State := { s with err := .none }

/-- A command's checks and then its effect: the first failing check raises its error and abandons the command (R242,
R249); otherwise the effect happens whole (R250). -/
def checked (failing : Option ErrCode) (s effect : State) : Host.Outcome State Fault Refusal :=
  match failing with
  | some e => .next (raiseError e s)
  | none => .next effect

/-! ## Packing into bus words (R53 to R55) -/

/-- Word `w` of a window of `n` words packed most significant bit first: word 0 is the top 32 bits (R53). -/
def packedWord (n : Nat) (image : BitVec (32 * n)) (w : Nat) : Word := (image >>> (32 * (n - 1 - w))).setWidth 32

/-- The image with word `w` replaced by `v`. -/
def replaceWord (n : Nat) (image : BitVec (32 * n)) (w : Nat) (v : Word) : BitVec (32 * n) :=
  let k := 32 * (n - 1 - w)
  (image &&& ~~~((BitVec.allOnes 32).setWidth (32 * n) <<< k)) ||| (v.setWidth (32 * n) <<< k)

/-- S as the six words STATE0 to STATE5: S[160] is bit 31 of STATE5 and the bits below it read 0 (R53, R54). -/
def stateImage (S : SReg) : BitVec (32 * 6) := S ++ 0#31

/-- STATEw (R53). -/
def readStateWord (S : SReg) (w : Nat) : Word := packedWord 6 (stateImage S) w

/-- A host write of `v` to STATEw: S[32w+j] <- v[31-j] wherever 32w+j <= 160; the other bits of STATE5 are ignored
(R53, R54). -/
def writeStateWord (S : SReg) (w : Nat) (v : Word) : SReg :=
  (replaceWord 6 (stateImage S) w v).extractLsb' 31 161

/-- DIGESTw (R53, R54). -/
def readDigestWord (D : DReg) (w : Nat) : Word := packedWord 5 D w

/-- Byte lane `b` of a word: bits 8b+7 to 8b (R55). -/
def lane (v : Word) (b : Nat) : Byte := v.extractLsb' (8 * b) 8

/-- Word `w` of a character buffer: character 4w+b in lane b (R55). -/
def readCharWord {n : Nat} (buf : Vector Byte n) (w : Nat) : Word :=
  let c (b : Nat) : Byte := buf[4 * w + b]?.getD 0
  c 3 ++ c 2 ++ c 1 ++ c 0

/-- A host write of `v` to word `w` of a character buffer: character 4w+b <- lane b (R55). -/
def writeCharWord {n : Nat} (buf : Vector Byte n) (w : Nat) (v : Word) : Vector Byte n :=
  (((buf.setIfInBounds (4 * w) (lane v 0)).setIfInBounds (4 * w + 1) (lane v 1)).setIfInBounds
    (4 * w + 2) (lane v 2)).setIfInBounds (4 * w + 3) (lane v 3)

end Sys2Proof.Machine
end

