-- ==== Sys2Proof/Machine/Operands.lean ====
section
/-! DEFINITION. The operand forms of the commands (R91): the bits of a message byte, the prefix of D that TOHEX
converts, and the text that HEXIN parses. ROUNDS, BIT, LAST, BYTE and NBITS themselves come out of the decoder. -/

namespace Sys2Proof.Machine

/-- The message bits of a byte in the order they are absorbed: BYTE[7] first (R56, R85, R143). -/
def byteBits (byte : Byte) : List Bool := (List.range 8).map fun j => byte.getLsbD (7 - j)

/-- The bits D[0..n-1] that TOHEX converts (R182). -/
def digestPrefix (D : DReg) (n : Nat) : List Bool := (msbBits D).take n

/-- The text HEXIN[0..L-1] that HEXIN parses, L = HEXIN_LEN; characters beyond L are ignored (R183). -/
def hexinText (s : State) : List Byte := s.hexin.toList.take s.hexinLen.toNat

/-- The text without one optional "0x" or "0X" (R181, R183). -/
def stripHexPrefix : List Byte → List Byte
  | c0 :: c1 :: rest => if c0 = 0x30#8 ∧ (c1 = 0x78#8 ∨ c1 = 0x58#8) then rest else c0 :: c1 :: rest
  | [c] => [c]
  | [] => []

end Sys2Proof.Machine
end

