-- ==== Sys2Proof/Machine/Flags.lean ====
section
/-! DEFINITION. STATUS and its fields, the phase policy, and the checks behind the error codes. -/

namespace Sys2Proof.Machine

/-- The value of PHASE in STATUS bits 6:4 (R28, R29). -/
def Phase.code : Phase → BitVec 3
  | .idle => 0
  | .ready => 1
  | .absorbing => 2
  | .absorbed => 3
  | .squeezed => 4

/-- The value of ERR in STATUS bits 11:8 (R241). -/
def ErrCode.code : ErrCode → BitVec 4
  | .none => 0
  | .busy => 1
  | .badop => 2
  | .seq => 3
  | .badlen => 4
  | .badhex => 5

/-- The STATUS layout (R29): ERR in 11:8, PHASE in 6:4, HV in 2, DV in 1, BUSY in 0, every other bit 0. -/
def statusLayout (err : BitVec 4) (phase : BitVec 3) (hv dv busy : Bool) : Word :=
  0#20 ++ err ++ 0#1 ++ phase ++ 0#1 ++ BitVec.ofBool hv ++ BitVec.ofBool dv ++ BitVec.ofBool busy

/-- STATUS as read while BUSY = 0 (R29). -/
def statusIdle (s : State) : Word := statusLayout s.err.code s.phase.code s.hv s.dv false

/-- STATUS as read while BUSY = 1 (R60): BUSY and ERR exact, PHASE, HV and DV taken from the free word `free`,
reserved bits 0. Log 4. -/
def statusBusy (s : State) (free : Word) : Word :=
  statusLayout s.err.code (free.extractLsb' 4 3) (free.getLsbD 2) (free.getLsbD 1) true

/-! ## The absorption policy (R28, R140, R144) -/

/-- The round count of the next message bit: 324 if it is the first (PHASE = READY) or carries LAST, else 162. -/
def absorbRounds (p : Phase) (last : Bool) : Nat :=
  match p, last with
  | .ready, _ => roundsEdge
  | _, true => roundsEdge
  | _, false => roundsInterior

/-- PHASE after a message bit (R144). -/
def phaseAfterBit (last : Bool) : Phase := if last then .absorbed else .absorbing

/-! ## The checks (R245 to R247) -/

/-- ABSB and ABSY are legal in READY and ABSORBING (R245). -/
def absorbError (s : State) : Option ErrCode :=
  match s.phase with
  | .ready | .absorbing => none
  | .idle | .absorbed | .squeezed => some .seq

/-- FINAL is legal in READY and ABSORBED (R245). -/
def finalError (s : State) : Option ErrCode :=
  match s.phase with
  | .ready | .absorbed => none
  | .idle | .absorbing | .squeezed => some .seq

/-- TOHEX takes NBITS in 1..160 (R182, R246). -/
def tohexError (nbits : Nat) : Option ErrCode :=
  if nbits < 1 ∨ digestBitCount < nbits then some .badlen else none

/-- The value of a hex digit's ASCII code: '0'..'9', 'A'..'F', 'a'..'f' (R12). -/
def hexVal? (c : Byte) : Option (BitVec 4) :=
  let n := c.toNat
  if 0x30 ≤ n ∧ n ≤ 0x39 then some (BitVec.ofNat 4 (n - 0x30))
  else if 0x41 ≤ n ∧ n ≤ 0x46 then some (BitVec.ofNat 4 (n - 0x41 + 10))
  else if 0x61 ≤ n ∧ n ≤ 0x66 then some (BitVec.ofNat 4 (n - 0x61 + 10))
  else none

/-- HEXIN takes at most 64 characters (R246), each a hex digit after the optional prefix (R247), checked in that
order (R249). -/
def hexinError (s : State) : Option ErrCode :=
  if hexinMax < s.hexinLen.toNat then some .badlen
  else if (stripHexPrefix (hexinText s)).all fun c => (hexVal? c).isSome then none
  else some .badhex

/-- The first failing check of a decoded command (R249: SEQ, then BADLEN, then BADHEX); none if it is accepted. -/
def acceptError (i : Instr) (s : State) : Option ErrCode :=
  match i with
  | .absb _ _ | .absy _ _ => absorbError s
  | .final => finalError s
  | .tohex nbits => tohexError nbits
  | .hexin => hexinError s
  | .nop | .init | .adv _ | .xorin _ | .sqz1 | .clrerr => none

end Sys2Proof.Machine
end

