-- ==== Sys2Proof/Machine/Codec.lean ====
section
/-! DEFINITION. The hex codec: `toHex` and `hexToBits160` (R180, R181), and the commands TOHEX and HEXIN. -/

namespace Sys2Proof.Machine

/-- The ASCII code of a lowercase hex digit (R12, R180). -/
def hexDigit (v : BitVec 4) : Byte :=
  if v.toNat < 10 then BitVec.ofNat 8 (0x30 + v.toNat) else BitVec.ofNat 8 (0x61 + (v.toNat - 10))

/-- The digits of the successive 4-bit groups, most significant bit first (R180). -/
def groupDigits : List Bool → List Byte
  | b0 :: b1 :: b2 :: b3 :: rest => hexDigit (ofMsbBits 4 [b0, b1, b2, b3]) :: groupDigits rest
  | _ => []

/-- `toHex(bits)` (R180): left-pad with zero bits to a multiple of 4, then one digit per group. R180 defines it on at
least one bit; on no bits this total function gives the empty text, which is the model's own choice and is never used:
TOHEX 0 is refused (log 17). -/
def toHex (bits : List Bool) : List Byte :=
  groupDigits (List.replicate ((4 - bits.length % 4) % 4) false ++ bits)

/-- The four bits of a hex digit, most significant first (R181). The text is checked before it is converted, so the 0
for a character that is no digit is never used (R183, log 10). -/
def hexDigitBits (c : Byte) : List Bool := msbBits ((hexVal? c).getD 0)

/-- `hexToBits160(t)` (R181): strip one prefix, left-pad to 40 digits, convert, keep the first 160 bits. -/
def hexToBits160 (text : List Byte) : List Bool :=
  let t := stripHexPrefix text
  let padded := List.replicate (40 - t.length) 0x30#8 ++ t
  (padded.flatMap hexDigitBits).take digestBitCount

/-- The 40 slots of HEXOUT for a text: the text, then 0x00 (R182). -/
def hexoutImage (text : List Byte) : Vector Byte 40 :=
  ⟨((List.range 40).map fun c => text[c]?.getD 0).toArray, by simp⟩

/-- TOHEX n (R182). -/
def execTohex (nbits : Nat) (s : State) : Host.Outcome State Fault Refusal :=
  let h := toHex (digestPrefix s.D nbits)
  checked (tohexError nbits) s
    { s with hexout := hexoutImage h, hexoutLen := BitVec.ofNat 7 h.length, hv := true }

/-- HEXIN (R183). -/
def execHexin (s : State) : Host.Outcome State Fault Refusal :=
  checked (hexinError s) s
    { s with D := ofMsbBits 160 (hexToBits160 (hexinText s)), dv := false, hv := false }

end Sys2Proof.Machine
end

