-- ==== Sys2Proof/Machine/Control.lean ====
section
/-! DEFINITION. The control commands NOP and CLRERR (43_control). -/

namespace Sys2Proof.Machine

/-- NOP: nothing (R220). -/
def execNop (s : State) : Host.Outcome State Fault Refusal := .next s

/-- CLRERR: ERR <- 0 (R221). -/
def execClrerr (s : State) : Host.Outcome State Fault Refusal := .next (clearError s)

end Sys2Proof.Machine
end

