-- ==== Sys2Proof/Machine/Permutation.lean ====
section
/-! DEFINITION. The permutation commands INIT, ADV and XORIN (40_seed_permutation). -/

namespace Sys2Proof.Machine

/-- INIT (R107). -/
def execInit (s : State) : Host.Outcome State Fault Refusal :=
  .next { s with S := SEED, bitcnt := 0, phase := .ready, dv := false }

/-- ADV r (R108). -/
def execAdv (rounds : Nat) (s : State) : Host.Outcome State Fault Refusal :=
  .next { s with S := advance s.S rounds }

/-- XORIN b (R109). -/
def execXorin (bit : Bool) (s : State) : Host.Outcome State Fault Refusal :=
  .next { s with S := inject bit s.S }

end Sys2Proof.Machine
end

