-- ==== Sys2Proof/Machine/Sponge.lean ====
section
/-! DEFINITION. The orchestrator's commands ABSB, ABSY, FINAL and SQZ1 (41_sponge). -/

namespace Sys2Proof.Machine

/-- One message bit: inject, advance by the policy's round count, move PHASE (R144). -/
def absorbBit (bit last : Bool) (s : State) : State :=
  { s with S := advance (inject bit s.S) (absorbRounds s.phase last), phase := phaseAfterBit last }

/-- The message bits of a byte in turn, of which the last carries LAST (R145). -/
def absorbBits : List Bool → Bool → State → State
  | [], _, s => s
  | [bit], last, s => absorbBit bit last s
  | bit :: next :: rest, last, s => absorbBits (next :: rest) last (absorbBit bit false s)

/-- ABSB b [, last] (R144). -/
def execAbsb (bit last : Bool) (s : State) : Host.Outcome State Fault Refusal :=
  checked (absorbError s) s { absorbBit bit last s with bitcnt := s.bitcnt + 1 }

/-- ABSY y [, last] (R145). -/
def execAbsy (byte : Byte) (last : Bool) (s : State) : Host.Outcome State Fault Refusal :=
  checked (absorbError s) s { absorbBits (byteBits byte) last s with bitcnt := s.bitcnt + 8 }

/-- S when FINAL starts squeezing: in READY (k = 0) after the one 324-round pass (R146). -/
def finalStart (s : State) : SReg :=
  match s.phase with
  | .ready => advance s.S roundsEdge
  | .idle | .absorbing | .absorbed | .squeezed => s.S

/-- FINAL (R146). S is not overwritten with the digest (R151). -/
def execFinal (s : State) : Host.Outcome State Fault Refusal :=
  let sd := squeezeSteps squeezeCount (finalStart s, s.D)
  checked (finalError s) s { s with S := sd.1, D := sd.2, phase := .squeezed, dv := true, hv := false }

/-- SQZ1 (R147). -/
def execSqz1 (s : State) : Host.Outcome State Fault Refusal :=
  let sd := squeezeStep (s.S, s.D)
  .next { s with S := sd.1, D := sd.2, dv := false, hv := false }

end Sys2Proof.Machine
end

