-- ==== Sys2Proof/Machine/Dispatch.lean ====
section
/-! DEFINITION. What each command does: its checks and its pseudocode, one arm per command (R107 to R221). -/

namespace Sys2Proof.Machine

def exec (i : Instr) (s : State) : Host.Outcome State Fault Refusal :=
  match i with
  | .nop => Sys2Proof.Machine.execNop s
  | .init => Sys2Proof.Machine.execInit s
  | .adv rounds => Sys2Proof.Machine.execAdv rounds s
  | .xorin bit => Sys2Proof.Machine.execXorin bit s
  | .sqz1 => Sys2Proof.Machine.execSqz1 s
  | .absb bit last => Sys2Proof.Machine.execAbsb bit last s
  | .absy byte last => Sys2Proof.Machine.execAbsy byte last s
  | .final => Sys2Proof.Machine.execFinal s
  | .tohex nbits => Sys2Proof.Machine.execTohex nbits s
  | .hexin => Sys2Proof.Machine.execHexin s
  | .clrerr => Sys2Proof.Machine.execClrerr s

end Sys2Proof.Machine
end

