-- ==== Sys2Proof/Config.lean ====
section
/-! DEFINITION. The values the spec leaves open. Each is a constant with no body, so no proof can know its value. -/

namespace Sys2Proof.Config

/-- BASE (R7, R50): the host byte address of the register window, which the platform sets. Nothing is assumed of it.
Log 1. -/
opaque base : Nat

/-- LATENCY (R7, R283, R288): how many host turns pass between the acceptance of a command and its completion.
The argument is the draw counter, so each accepted command has a latency of its own. Free value, log 3. -/
opaque latency : Nat → Nat

/-- The value a data register reads as while BUSY = 1 (R60): free, one per draw. Log 4. -/
opaque freeWord : Nat → Word

end Sys2Proof.Config
end

