-- ==== Sys2Proof/WellFormed.lean ====
section
/-! DEFINITION. Which command terms have an encoding: the two counts must fit their fields. -/

namespace Sys2Proof

/-- ROUNDS fits w[23:0] (R82) and NBITS fits w[7:0] (R86); every other operand fits by its type. NBITS outside
1..160 is well formed: it assembles (R92) and is refused when the command is accepted (R86, R182). -/
def Instr.wellFormed : Instr → Bool
  | .adv rounds => decide (rounds < 2 ^ 24)
  | .tohex nbits => decide (nbits < 2 ^ 8)
  | .nop | .init | .xorin _ | .sqz1 | .absb _ _ | .absy _ _ | .final | .hexin | .clrerr => true

/-- `i` has an encoding. -/
abbrev Instr.WellFormed (i : Instr) : Prop := i.wellFormed = true

end Sys2Proof
end

