-- ==== Sys2Proof/Decode.lean ====
section
/-! DEFINITION. Command encoding (R80 to R91): the formats, the opcode map, the decoder and the encoder. -/

namespace Sys2Proof

/-- The six command formats (R81 to R86). -/
inductive Format where
  | N | R | X | A | Y | L
  deriving DecidableEq, Repr

/-- Why a word is no command (R88, R89). Both raise ERR_BADOP. -/
inductive DecodeError where
  /-- OPC is none of the eleven values of the map (R88). -/
  | reservedOpcode
  /-- OPC is defined and some must-be-zero bit is 1 (R89). -/
  | malformed
  deriving DecidableEq, Repr

/-- The rows of the opcode map, by mnemonic (R87). -/
inductive Opcode where
  | NOP | INIT | ADV | XORIN | SQZ1 | ABSB | ABSY | FINAL | TOHEX | HEXIN | CLRERR
  deriving DecidableEq, Repr

/-- Every row of the map (R87). -/
def Opcode.all : List Opcode :=
  [.NOP, .INIT, .ADV, .XORIN, .SQZ1, .ABSB, .ABSY, .FINAL, .TOHEX, .HEXIN, .CLRERR]

/-- The OPC column of the map (R87). -/
def Opcode.opc : Opcode → BitVec 8
  | .NOP => 0x00
  | .INIT => 0x01
  | .ADV => 0x02
  | .XORIN => 0x03
  | .SQZ1 => 0x04
  | .ABSB => 0x10
  | .ABSY => 0x11
  | .FINAL => 0x12
  | .TOHEX => 0x20
  | .HEXIN => 0x21
  | .CLRERR => 0x30

/-- The format column of the map (R87). -/
def Opcode.format : Opcode → Format
  | .NOP | .INIT | .SQZ1 | .FINAL | .HEXIN | .CLRERR => .N
  | .ADV => .R
  | .XORIN => .X
  | .ABSB => .A
  | .ABSY => .Y
  | .TOHEX => .L

/-- The mask column of the map: OPC and every must-be-zero bit of the format (R81 to R87). -/
def Format.mask : Format → Word
  | .N => 0xFFFFFFFF
  | .R => 0xFF000000
  | .X => 0xFFFFFFFE
  | .A => 0xFFFFFFFC
  | .Y => 0xFFFFFE00
  | .L => 0xFFFFFF00

/-- The match column of the map: OPC in w[31:24], zeros below it (R80, R87). -/
def Opcode.matchWord (op : Opcode) : Word := op.opc ++ 0#24

/-- OPC = w[31:24] (R80). -/
def opcField (w : Word) : BitVec 8 := w.extractLsb' 24 8

/-- ROUNDS = w[23:0], unsigned (R82, R91). -/
def roundsField (w : Word) : Nat := (w.extractLsb' 0 24).toNat

/-- BIT = w[0] (R83, R84, R91). -/
def bitField (w : Word) : Bool := w.getLsbD 0

/-- LAST of format A = w[1] (R84). -/
def lastFieldA (w : Word) : Bool := w.getLsbD 1

/-- BYTE = w[7:0] (R85, R91). -/
def byteField (w : Word) : Byte := w.extractLsb' 0 8

/-- LAST of format Y = w[8] (R85). -/
def lastFieldY (w : Word) : Bool := w.getLsbD 8

/-- NBITS = w[7:0], unsigned (R86, R91). -/
def nbitsField (w : Word) : Nat := (w.extractLsb' 0 8).toNat

/-- The command of a word that selects row `op`: its operand fields, read out (R81 to R86). -/
def Opcode.assemble (w : Word) : Opcode → Instr
  | .NOP => .nop
  | .INIT => .init
  | .ADV => .adv (roundsField w)
  | .XORIN => .xorin (bitField w)
  | .SQZ1 => .sqz1
  | .ABSB => .absb (bitField w) (lastFieldA w)
  | .ABSY => .absy (byteField w) (lastFieldY w)
  | .FINAL => .final
  | .TOHEX => .tohex (nbitsField w)
  | .HEXIN => .hexin
  | .CLRERR => .clrerr

/-- The row whose OPC value is `opc`, if there is one. -/
def Opcode.ofOpc (opc : BitVec 8) : Option Opcode := Opcode.all.find? (fun op => op.opc == opc)

/-- The decoder (R87 to R89), total on 32-bit words: a reserved opcode and a malformed word are rejected by name. -/
def decode (w : Word) : Except DecodeError Instr :=
  match Opcode.ofOpc (opcField w) with
  | none => .error .reservedOpcode
  | some op => if w &&& op.format.mask = op.matchWord then .ok (op.assemble w) else .error .malformed

/-- The row of a command. -/
def Instr.opcode : Instr → Opcode
  | .nop => .NOP
  | .init => .INIT
  | .adv _ => .ADV
  | .xorin _ => .XORIN
  | .sqz1 => .SQZ1
  | .absb _ _ => .ABSB
  | .absy _ _ => .ABSY
  | .final => .FINAL
  | .tohex _ => .TOHEX
  | .hexin => .HEXIN
  | .clrerr => .CLRERR

/-- The operand fields w[23:0] of a command, must-be-zero bits 0 (R81 to R86). -/
def Instr.operands : Instr → BitVec 24
  | .adv rounds => BitVec.ofNat 24 rounds
  | .xorin bit => 0#23 ++ BitVec.ofBool bit
  | .absb bit last => 0#22 ++ BitVec.ofBool last ++ BitVec.ofBool bit
  | .absy byte last => 0#15 ++ BitVec.ofBool last ++ byte
  | .tohex nbits => 0#16 ++ BitVec.ofNat 8 nbits
  | .nop | .init | .sqz1 | .final | .hexin | .clrerr => 0#24

/-- The encoder: the word of the assembler syntax (R92), OPC in w[31:24] and the operands below it (R80). -/
def encode (i : Instr) : Word := i.opcode.opc ++ i.operands

/-- The command word whose bits are `w`, of which `nbits` are given and all higher bits are 0. A command is one
32-bit word (R80), so the table's numbering of bits is the word's own (R10). -/
def tableWord (nbits w : Nat) : Word := BitVec.ofNat 32 (w % 2 ^ nbits)

/-- What the decoder reads from the table's word; none where it rejects it. -/
def decodeTableWord (nbits w : Nat) : Option Instr := (decode (tableWord nbits w)).toOption

end Sys2Proof
end

