-- ==== Sys2Proof/Machine/Window.lean ====
section
/-! DEFINITION. The register window (R50 to R61): the map, what a host read returns, and what a host write does. -/

namespace Sys2Proof.Machine

/-- The registers of the window (R51). -/
inductive WindowReg where
  | cmd
  | status
  | bitcntLo
  | bitcntHi
  | hexoutLen
  | hexinLen
  | state (w : Fin 6)
  | digest (w : Fin 5)
  | hexout (w : Fin 10)
  | hexin (w : Fin 16)
  deriving DecidableEq, Repr

/-- The register at an aligned offset of the window; none at an unmapped one (R51). -/
def windowReg? (off : Nat) : Option WindowReg :=
  if off = 0x000 then some .cmd
  else if off = 0x004 then some .status
  else if off = 0x008 then some .bitcntLo
  else if off = 0x00C then some .bitcntHi
  else if off = 0x010 then some .hexoutLen
  else if off = 0x014 then some .hexinLen
  else if h : 0x020 ≤ off ∧ off < 0x038 then some (.state ⟨(off - 0x020) / 4, by omega⟩)
  else if h : 0x040 ≤ off ∧ off < 0x054 then some (.digest ⟨(off - 0x040) / 4, by omega⟩)
  else if h : 0x060 ≤ off ∧ off < 0x088 then some (.hexout ⟨(off - 0x060) / 4, by omega⟩)
  else if h : 0x0A0 ≤ off ∧ off < 0x0E0 then some (.hexin ⟨(off - 0x0A0) / 4, by omega⟩)
  else none

/-- The block's decision on an access at an offset of the window, before any other check (R52, R248, R249): the
register, or the bus error. Which of several causes is named first is the model's (log 6). -/
def windowDecode (off width : Nat) : Except Fault WindowReg :=
  if width ≠ 4 then .error .busErrorWidth
  else if off % 4 ≠ 0 then .error .busErrorMisaligned
  else match windowReg? off with
    | some r => .ok r
    | none => .error .busErrorUnmapped

/-- The window's place on the host's bus (R7, R50): the byte addresses BASE to BASE + 0x0FF are the offsets 0x000 to
0x0FF of the window. Any other address is no access of this block (log 7). -/
def busDecode (addr width : Nat) : Except Fault WindowReg :=
  if addr < Config.base ∨ Config.base + windowBytes ≤ addr then .error .outsideWindow
  else windowDecode (addr - Config.base) width

/-- What a register reads as while BUSY = 0 (R51, R53 to R55). CMD reads 0 (R57). -/
def readIdle (r : WindowReg) (s : State) : Word :=
  match r with
  | .cmd => 0
  | .status => statusIdle s
  | .bitcntLo => s.bitcnt.extractLsb' 0 32
  | .bitcntHi => s.bitcnt.extractLsb' 32 32
  | .hexoutLen => s.hexoutLen.setWidth 32
  | .hexinLen => s.hexinLen
  | .state w => readStateWord s.S w
  | .digest w => readDigestWord s.D w
  | .hexout w => readCharWord s.hexout w
  | .hexin w => readCharWord s.hexin w

/-- What a register reads as while BUSY = 1 (R60): STATUS, CMD, HEXIN and HEXIN_LEN as listed, every other register
the free word `free`. Log 4. -/
def readBusy (r : WindowReg) (s : State) (free : Word) : Word :=
  match r with
  | .cmd => 0
  | .status => statusBusy s free
  | .hexinLen => s.hexinLen
  | .hexin w => readCharWord s.hexin w
  | .bitcntLo | .bitcntHi | .hexoutLen | .state _ | .digest _ | .hexout _ => free

/-- A host read: its reply is recorded with its byte address, and no register changes (R58). A read while BUSY = 1 draws a
free value of its own (R60). -/
def readReg (addr : Nat) (r : WindowReg) (s : State) : State :=
  if s.busy then
    { s with replies := (addr, readBusy r s (Config.freeWord s.draws)) :: s.replies, draws := s.draws + 1 }
  else { s with replies := (addr, readIdle r s) :: s.replies }

/-- A host write of `w` to CMD (R283): refused while BUSY = 1; else checked in the order of R249; else accepted, with
a latency of its own. -/
def presentCommand (w : Word) (s : State) : State :=
  if s.busy then raiseError .busy s
  else match decode w with
    | .error _ => raiseError .badop s
    | .ok i => match acceptError i s with
      | some e => raiseError e s
      | none => { s with pending := some ⟨w, Config.latency s.draws⟩, draws := s.draws + 1 }

/-- A write that BUSY = 1 refuses with ERR_BUSY (R59, R243). -/
def unlessBusy (s written : State) : State := if s.busy then raiseError .busy s else written

/-- A host write (R51, R53 to R59): read-only registers ignore it, without an error. -/
def writeReg (r : WindowReg) (v : Word) (s : State) : State :=
  match r with
  | .cmd => presentCommand v s
  | .hexinLen => unlessBusy s { s with hexinLen := v }
  | .state w => unlessBusy s { s with S := writeStateWord s.S w v }
  | .hexin w => unlessBusy s { s with hexin := writeCharWord s.hexin w v }
  | .status | .bitcntLo | .bitcntHi | .hexoutLen | .digest _ | .hexout _ => s

end Sys2Proof.Machine
end

