-- ==== Sys2Proof/Machine/Lifecycle.lean ====
section
/-! DEFINITION. The turns of the two agents (R13, R283): the host's next access, and the engine's completion. -/

namespace Sys2Proof.Machine

/-- The platform's reset input (R280): every register to its R36 value, a pending command abandoned. What belongs to
the host and to the model's counters stays (log 11). -/
def platformReset (s : State) : State :=
  { State.reset with hostOps := s.hostOps, replies := s.replies, draws := s.draws }

/-- The engine completes a command (R283): it decodes the pending word and applies the command as one atomic update.
An accepted word always decodes and passes its checks; on any other word the outcome is that of presenting it (R88,
R89, log 8). -/
def engineComplete (w : Word) (s : State) : Host.Outcome State Fault Refusal :=
  match decode w with
  | .ok i => exec i s
  | .error _ => .next (raiseError .badop s)

/-- The host's turn: it performs its next access (R63), or nothing if it has none (R258, R281). WAIT reads STATUS and
stays until BUSY is 0 (R92). A bus error stops the run (R52, log 6). -/
def hostTurn (s : State) : Host.Outcome State Fault Refusal :=
  match s.hostOps with
  | [] => .next s
  | .write addr width v :: rest =>
    match busDecode addr width with
    | .ok r => .next (writeReg r v { s with hostOps := rest })
    | .error f => .fault f
  | .read addr width :: rest =>
    match busDecode addr width with
    | .ok r => .next (readReg addr r { s with hostOps := rest })
    | .error f => .fault f
  | .wait :: rest =>
    .next (readReg (Config.base + 0x004) .status (if s.busy then s else { s with hostOps := rest }))
  | .reset :: rest => .next (platformReset { s with hostOps := rest })

end Sys2Proof.Machine
end

