-- ==== Sys2Proof/Machine/Step.lean ====
section
/-! DEFINITION. One step of the block and its host, and where a command word is placed so that the next step runs it. -/

namespace Sys2Proof.Machine

/-- One step (R13, R283): with no pending command it is the host's turn; a pending command whose delay has run out is
completed by the engine; before that the host has a turn (log 3). The pending register is emptied as the command is
completed. -/
def step (s : State) : Host.Outcome State Fault Refusal :=
  match s.pending with
  | none => hostTurn s
  | some ⟨w, 0⟩ => engineComplete w { s with pending := none }
  | some ⟨w, delay + 1⟩ => hostTurn { s with pending := some ⟨w, delay⟩ }

/-- `s` with the table's word as the pending command, to be completed by the very next step: what the host's write of
the word to CMD leaves when its latency is 0 (log 2). -/
def State.withFetchWord (s : State) (nbits w : Nat) : State :=
  { s with pending := some ⟨tableWord nbits w, 0⟩ }

end Sys2Proof.Machine
end

