-- ==== Sys2Proof/Machine/HostProgram.lean ====
section
/-! DEFINITION. Host programs in the notation of R92 and R93: mnemonic lines and pseudo-instructions, as command lists
and as host accesses. -/

namespace Sys2Proof.Machine

/-- Commands completed one after the other, stopping at the first fault or refusal. -/
def execAll : List Instr → State → Host.Outcome State Fault Refusal
  | [], s => .next s
  | i :: rest, s =>
    match exec i s with
    | .next t => execAll rest t
    | .fault f => .fault f
    | .refused r => .refused r

/-- `n` steps, stopping at the first fault or refusal. -/
def runSteps : Nat → State → Host.Outcome State Fault Refusal
  | 0, s => .next s
  | n + 1, s =>
    match step s with
    | .next t => runSteps n t
    | .fault f => .fault f
    | .refused r => .refused r

/-- A mnemonic standing alone as a program line: write its word to CMD, then WAIT (R92). -/
def commandLine (i : Instr) : List HostOp := [.write (Config.base + 0x000) 4 (encode i), .wait]

/-- A program of mnemonic lines (R92). -/
def commandLines (is : List Instr) : List HostOp := is.flatMap commandLine

/-- `ABSMSG y0, ..., y(n-1)` (R93): LAST on the final byte. -/
def absmsg : List Byte → List Instr
  | [] => []
  | [y] => [.absy y true]
  | y :: next :: rest => .absy y false :: absmsg (next :: rest)

/-- `ABSBITS b0, ..., b(k-1)` (R93): LAST on the final bit. -/
def absbits : List Bool → List Instr
  | [] => []
  | [b] => [.absb b true]
  | b :: next :: rest => .absb b false :: absbits (next :: rest)

/-- `HASH y0, ..., y(n-1)`, also of the empty message (R93). -/
def hashBytes (y : List Byte) : List Instr := .init :: absmsg y ++ [.final]

/-- The bit form of HASH: INIT, ABSBITS, FINAL (R148). -/
def hashBits (m : List Bool) : List Instr := .init :: absbits m ++ [.final]

/-- `HEXDIGEST` (R93). -/
def hexdigest : List Instr := [.tohex 160]

/-- Word `w` of a text packed by R55. -/
def textWord (text : List Byte) (w : Nat) : Word :=
  let c (b : Nat) : Byte := text[4 * w + b]?.getD 0
  c 3 ++ c 2 ++ c 1 ++ c 0

/-- `LOADHEX "t"` (R93): the packed words to HEXIN0.., the length to HEXIN_LEN, then HEXIN. -/
def loadhex (text : List Byte) : List HostOp :=
  (List.range ((text.length + 3) / 4)).map (fun w => .write (Config.base + (0x0A0 + 4 * w)) 4 (textWord text w)) ++
    .write (Config.base + 0x014) 4 (BitVec.ofNat 32 text.length) :: commandLine .hexin

end Sys2Proof.Machine
end

