-- ==== Sys2Proof/Machine/Reference.lean ====
section
/-! DEFINITION. The functions of the source's sponge as the spec gives them (R140 to R143), apart from the commands:
what a whole digest computation is. No command calls them. -/

namespace Sys2Proof.Machine

/-- `rounds(i, k)` (R140). -/
def roundsAt (i k : Nat) : Nat := if i = 0 ∨ i + 1 = k then roundsEdge else roundsInterior

/-- `absorb(S, m)` (R140): one pass with nothing injected for k = 0, else inject and advance for each bit. -/
def absorb (S : SReg) (m : List Bool) : SReg :=
  if m.length = 0 then advance S roundsEdge
  else m.zipIdx.foldl (fun S bi => advance (inject bi.1 S) (roundsAt bi.2 m.length)) S

/-- `n` iterations of the loop of `squeeze` (R141): the state, and the output bits in append order. -/
def squeezeLoop : Nat → SReg → SReg × List Bool
  | 0, S => (S, [])
  | n + 1, S =>
    let before := squeezeLoop n S
    let S' := advance before.1 roundsSqueeze
    (S', before.2 ++ [extractionBit S'])

/-- `squeeze(S)` (R141). -/
def squeeze (S : SReg) : SReg × List Bool := squeezeLoop squeezeCount S

/-- `msgbits(y)` (R143). -/
def msgBits (y : List Byte) : List Bool := y.flatMap byteBits

/-- `digest_bits(m)` (R142). -/
def digestOfBits (m : List Bool) : List Bool := (squeeze (absorb SEED m)).2

/-- `digest(y)` (R142). -/
def digest (y : List Byte) : List Bool := digestOfBits (msgBits y)

end Sys2Proof.Machine
end

