-- ==== Sys2Proof/Machine/Seed.lean ====
section
/-! DEFINITION. The seed generator (R100): repeated doubling of π's decimal fraction. SEED itself (R102) is the
constant of Params; that the generator yields it is a statement about both. -/

namespace Sys2Proof.Machine

/-- The first 100 fractional digits of π (R100). -/
def piDigits : List Nat :=
  [1,4,1,5,9,2,6,5,3,5] ++ [8,9,7,9,3,2,3,8,4,6] ++ [2,6,4,3,3,8,3,2,7,9] ++ [5,0,2,8,8,4,1,9,7,1] ++
  [6,9,3,9,9,3,7,5,1,0] ++ [5,8,2,0,9,7,4,9,4,4] ++ [5,9,2,3,0,7,8,1,6,4] ++ [0,6,2,8,6,2,0,8,9,9] ++
  [8,6,2,8,0,3,4,8,2,5] ++ [3,4,2,1,1,7,0,6,7,9]

/-- Doubling a decimal fraction, least significant digit first: the carry out of the most significant digit, and the
digits that remain (R100). -/
def doubleDigits : List Nat → Nat × List Nat
  | [] => (0, [])
  | d :: ds =>
    let below := doubleDigits ds
    let v := 2 * d + below.1
    (v / 10, v % 10 :: below.2)

/-- The re-padding line of R100, which never fires (C4). -/
def repadDigits (digits : List Nat) : List Nat := digits ++ List.replicate (seedDigitCount - digits.length) 0

/-- `n` output bits of the generator, first produced bit first: each is the carry of one doubling (R100). -/
def generatedBits : Nat → List Nat → List Bool
  | 0, _ => []
  | n + 1, digits =>
    let doubled := doubleDigits digits
    (doubled.1 == 1) :: generatedBits n (repadDigits doubled.2)

/-- The seed generator: 161 bits from the digits (R100). -/
def generatedSeed (digits : List Nat) : SReg := ofMsbBits 161 (generatedBits stateBits digits)

end Sys2Proof.Machine
end

