-- ==== Sys2Proof/Safety.lean ====
section
/-! DEFINITION. What claims are stated in: the launch premises of R291, the end of a run (R289), the mapped offsets, and
the invariant of the block. -/

namespace Sys2Proof.Machine

/-- The block's own part of the state: every register and the pending command. The host's queue, the replies and the
draw counter are blanked. -/
def State.block (s : State) : State := { s with hostOps := [], replies := [], draws := 0 }

/-- AtReset (R291): every register holds its R36 value and no command is pending. -/
abbrev State.AtReset (s : State) : Prop := s.block = State.reset

/-- Quiet (R291): BUSY = 0, no command pending. -/
abbrev State.Quiet (s : State) : Prop := s.pending = none

/-- NoErr (R291): ERR = 0. -/
abbrev State.NoErr (s : State) : Prop := s.err = .none

/-- Ready (R291): the state right after a completed INIT. -/
abbrev State.Ready (s : State) : Prop :=
  s.Quiet ∧ s.NoErr ∧ s.phase = .ready ∧ s.S = SEED ∧ s.bitcnt = 0

/-- The step from `s` to `t` performed a STATUS read, by itself or in a WAIT, that returned BUSY = 0 (R289). -/
def PollsIdle (s t : State) : Prop :=
  step s = .next t ∧ ∃ v : Word, t.replies = (Config.base + 0x004, v) :: s.replies ∧ v.getLsbD 0 = false

/-- The host access is a write to CMD, which presents a command (R58). -/
def HostOp.presentsCommand : HostOp → Prop
  | .write addr _ _ => addr = Config.base + 0x000
  | .read _ _ | .wait | .reset => False

/-- A run of `n` steps from `s` ends in `t` (R289): the host has issued its last access, no command is pending, and a
STATUS read of this run returned BUSY = 0, after which no command was presented (log 18). -/
structure RunEnds (s : State) (n : Nat) (t : State) : Prop where
  run : runSteps n s = .next t
  issued : t.hostOps = []
  completed : t.pending = none
  polled : ∃ k u v, k < n ∧ runSteps k s = .next u ∧ PollsIdle u v ∧ ∀ op ∈ v.hostOps, ¬ op.presentsCommand

/-- An offset with a register in the map of R51. -/
abbrev MappedOffset (off : Nat) : Prop :=
  off % 4 = 0 ∧ (off ≤ 0x014 ∨ (0x020 ≤ off ∧ off ≤ 0x034) ∨ (0x040 ≤ off ∧ off ≤ 0x050) ∨
    (0x060 ≤ off ∧ off ≤ 0x084) ∨ (0x0A0 ≤ off ∧ off ≤ 0x0DC))

/-- `c` is the ASCII code of a hex digit of value `v`, as R12 lists them. -/
abbrev HexDigitValue (c : Byte) (v : Nat) : Prop :=
  (0x30 ≤ c.toNat ∧ c.toNat ≤ 0x39 ∧ v = c.toNat - 0x30) ∨
  (0x41 ≤ c.toNat ∧ c.toNat ≤ 0x46 ∧ v = c.toNat - 0x41 + 10) ∨
  (0x61 ≤ c.toNat ∧ c.toNat ≤ 0x66 ∧ v = c.toNat - 0x61 + 10)

/-- What holds of the block between any two steps. -/
structure State.Inv (s : State) : Prop where
  /-- HEXOUT_LEN holds a value in 0..40 (R24). -/
  hexoutLen_le : s.hexoutLen.toNat ≤ 40
  /-- A character at an index at or past HEXOUT_LEN reads as 0x00 (R24). -/
  hexout_tail : ∀ c : Fin 40, s.hexoutLen.toNat ≤ c.val → s.hexout[c] = 0
  /-- HV = 1: HEXOUT holds toHex(D[0..n-1]) for some n in 1..160, and HEXOUT_LEN its length (R29, R31). -/
  hv_renders : s.hv = true → ∃ n, 1 ≤ n ∧ n ≤ 160 ∧
    s.hexout = hexoutImage (toHex (digestPrefix s.D n)) ∧
    s.hexoutLen.toNat = (toHex (digestPrefix s.D n)).length
  /-- DV = 1 only in SQUEEZED (R28, R30). -/
  dv_squeezed : s.dv = true → s.phase = .squeezed
  /-- No message bit has been counted before the first is absorbed (R26, R28). -/
  count_zero : s.phase = .idle ∨ s.phase = .ready → s.bitcnt = 0
  /-- A pending word decodes, and its command passes its checks (R283). -/
  pending_accepted : ∀ p, s.pending = some p → ∃ i, decode p.word = .ok i ∧ acceptError i s = none

end Sys2Proof.Machine
end

