-- ==== Sys2Proof/Certificates/Slice0/Obligations.lean ====
section
/-! DEFINITION. The statements for the provers: what each command does and leaves alone, what the window, the bus, the
lifecycle and reset do, and what the whole machine keeps. -/

open Sys2Proof Sys2Proof.Machine

/-! ## Encoding (30_encoding) -/

/-- Words written out from the formats of R81 to R87 decode to the commands they stand for, and two words that are no
command are rejected by name; the first four and the last two are R93's worked encodings. -/
def Obligations.WrittenWordsDecode : Prop :=
  decode 0x02000144 = .ok (.adv 324) ∧ decode 0x11000163 = .ok (.absy 0x63 true) ∧
  decode 0x10000003 = .ok (.absb true true) ∧ decode 0x200000A0 = .ok (.tohex 160) ∧
  decode 0x00000000 = .ok .nop ∧ decode 0x01000000 = .ok .init ∧ decode 0x03000001 = .ok (.xorin true) ∧
  decode 0x04000000 = .ok .sqz1 ∧ decode 0x12000000 = .ok .final ∧ decode 0x21000000 = .ok .hexin ∧
  decode 0x30000000 = .ok .clrerr ∧
  decode 0x10000004 = .error .malformed ∧ decode 0x05000000 = .error .reservedOpcode

/-- Decoding the word of any well-formed command gives the command back, every operand at every value (R80 to R92). -/
def Obligations.DecodeEncodeRoundTrip : Prop :=
  ∀ i : Instr, i.WellFormed → decode (encode i) = .ok i

/-- Decoding is strict: a word that decodes is exactly the word of the command it decodes to, which is well formed, so
no bit of a word is ignored (R87 to R89). -/
def Obligations.EncodeDecodeRoundTrip : Prop :=
  ∀ (w : Word) (i : Instr), decode w = .ok i → i.WellFormed ∧ encode i = w

/-- Every operand field of a decoded word is the unsigned field the formats name (R82 to R86, R91). -/
def Obligations.OperandFieldsOfWord : Prop :=
  ∀ w : Word,
    (∀ r, decode w = .ok (.adv r) → r = w.toNat % 2 ^ 24) ∧
    (∀ b, decode w = .ok (.xorin b) → b = w.getLsbD 0) ∧
    (∀ b l, decode w = .ok (.absb b l) → b = w.getLsbD 0 ∧ l = w.getLsbD 1) ∧
    (∀ y l, decode w = .ok (.absy y l) → y.toNat = w.toNat % 2 ^ 8 ∧ l = w.getLsbD 8) ∧
    (∀ n, decode w = .ok (.tohex n) → n = w.toNat % 2 ^ 8)

/-- The reserved opcodes are exactly the listed ranges of w[31:24], and writing such a word to CMD with nothing pending
records ERR_BADOP (if no error was recorded) and changes nothing else (R88). -/
def Obligations.ReservedOpcodesAreBadop : Prop :=
  ∀ (w : Word) (opc : Nat), opc = w.toNat / 2 ^ 24 →
    (decode w = .error .reservedOpcode ↔
      (0x05 ≤ opc ∧ opc ≤ 0x0F) ∨ (0x13 ≤ opc ∧ opc ≤ 0x1F) ∨ (0x22 ≤ opc ∧ opc ≤ 0x2F) ∨
        (0x31 ≤ opc ∧ opc ≤ 0xFF)) ∧
    ∀ (s : State) (rest : List HostOp), decode w = .error .reservedOpcode → s.pending = none →
      s.hostOps = .write (Config.base + 0x000) 4 w :: rest →
      step s = .next { s with hostOps := rest, err := if s.err = .none then .badop else s.err }

/-- A word with a defined OPC is malformed exactly when a must-be-zero bit of its format is 1, and writing it to CMD
with nothing pending records ERR_BADOP (if no error was recorded) and changes nothing else (R89). -/
def Obligations.MalformedWordsAreBadop : Prop :=
  ∀ (w : Word) (opc low : Nat), opc = w.toNat / 2 ^ 24 → low = w.toNat % 2 ^ 24 →
    (decode w = .error .malformed ↔
      ((opc = 0x00 ∨ opc = 0x01 ∨ opc = 0x04 ∨ opc = 0x12 ∨ opc = 0x21 ∨ opc = 0x30) ∧ low ≠ 0) ∨
        (opc = 0x03 ∧ 2 ≤ low) ∨ (opc = 0x10 ∧ 4 ≤ low) ∨ (opc = 0x11 ∧ 2 ^ 9 ≤ low) ∨
        (opc = 0x20 ∧ 2 ^ 8 ≤ low)) ∧
    ∀ (s : State) (rest : List HostOp), decode w = .error .malformed → s.pending = none →
      s.hostOps = .write (Config.base + 0x000) 4 w :: rest →
      step s = .next { s with hostOps := rest, err := if s.err = .none then .badop else s.err }

/-! ## Seed and permutation (40_seed_permutation) -/

/-- R100's generator, run on the 100 digits, produces the 161 bits of R102: the stated integer, the stated first 8
bits, 62 ones, SEED[160] = 0 and the stated STATE words. -/
def Obligations.SeedGeneratorYieldsSeed : Prop :=
  generatedSeed piDigits = SEED ∧ SEED = 0x487ED5110B4611A62633145C06E0E68948127044#161 ∧
  SEED.toNat = 413875790111020333547501403188924138972714790980 ∧
  (msbBits SEED).take 8 = [false, false, true, false, false, true, false, false] ∧
  (msbBits SEED).count true = 62 ∧ SEED.getMsbD 160 = false ∧
  (List.range 6).map (readStateWord SEED) =
    [0x243F6A88, 0x85A308D3, 0x13198A2E, 0x03707344, 0xA4093822, 0x00000000]

/-- The 161 bits do not depend on the precision: whatever decimal digits follow the first 100, the generator produces
SEED (R101). -/
def Obligations.SeedIndependentOfPrecision : Prop :=
  ∀ more : List Nat, (∀ d ∈ more, d < 10) → generatedSeed (piDigits ++ more) = SEED

/-- One round, bit by bit, for every state: the two shifts, the two new bits from the old state, and the factored
forms of Pf and Qf (R103, R104, R106). -/
def Obligations.RoundBitByBit : Prop :=
  ∀ (S : SReg) (b : Nat → Bool) (Pf Qf Lf : Bool), (∀ i, b i = S.getMsbD i) →
    Pf = ((b 0 && b 11) ^^ (b 0 && b 55) ^^ (b 11 && b 103) ^^ (b 103 && b 55) ^^ b 103 ^^ b 55 ^^ true) →
    Qf = ((b 105 && b 48) ^^ (b 105 && b 121) ^^ (b 80 && b 48) ^^ (b 80 && b 121) ^^ b 105 ^^ b 121) →
    Lf = (b 1 ^^ b 81 ^^ b 50) →
    (∀ i, i ≤ 78 → (nlfsrRound S).getMsbD i = b (i + 1)) ∧
    (nlfsrRound S).getMsbD 79 = (Pf ^^ Lf) ∧
    (∀ i, 80 ≤ i → i ≤ 159 → (nlfsrRound S).getMsbD i = b (i + 1)) ∧
    (nlfsrRound S).getMsbD 160 = (Qf ^^ Lf) ∧
    Pf = (((b 0 ^^ b 103) && (b 11 ^^ b 55)) ^^ b 103 ^^ b 55 ^^ true) ∧
    Qf = (((b 80 ^^ b 105) && (b 48 ^^ b 121)) ^^ b 105 ^^ b 121)

/-- The round is not injective (R110): with P11 = P55 flipping P0, and with P48 = Q41 flipping Q0, leads to the same
next state; and the all-zero state and the state with only S[0] = 1 both step to the state whose only 1 is S[79], which
reads as STATE2 = 0x00010000. -/
def Obligations.RoundIsNotInjective : Prop :=
  (∀ S : SReg, S.getMsbD 11 = S.getMsbD 55 → nlfsrRound (S ^^^ (1#161 <<< 160)) = nlfsrRound S) ∧
  (∀ S : SReg, S.getMsbD 48 = S.getMsbD 121 → nlfsrRound (S ^^^ (1#161 <<< 80)) = nlfsrRound S) ∧
  nlfsrRound 0 = 1#161 <<< 81 ∧ nlfsrRound (1#161 <<< 160) = 1#161 <<< 81 ∧
  readStateWord (1#161 <<< 81) 2 = 0x00010000

/-- `advance` applies the round exactly r times (R105), and ADV r replaces S by it and changes nothing else (R108). -/
def Obligations.AdvAppliesRounds : Prop :=
  (∀ S : SReg, advance S 0 = S ∧ ∀ r, advance S (r + 1) = nlfsrRound (advance S r)) ∧
  ∀ (r : Nat) (s : State), exec (.adv r) s = .next { s with S := advance s.S r }

/-- ADV a then ADV b has the effect of a + b rounds, in every state and phase (D8). Where a + b needs more than 24 bits,
`adv (a + b)` is no command of the machine, and what `exec` gives such a term is the model's choice (log 15). -/
def Obligations.AdvCountsAdd : Prop :=
  ∀ (a b : Nat) (s : State), execAll [.adv a, .adv b] s = exec (.adv (a + b)) s

/-- INIT (R107): S <- SEED, BITCNT <- 0, PHASE <- READY, DV <- 0, all else unchanged, in every state; twice is once. -/
def Obligations.InitStartsComputation : Prop :=
  ∀ s : State,
    exec .init s = .next { s with S := SEED, bitcnt := 0, phase := .ready, dv := false } ∧
    execAll [.init, .init] s = exec .init s

/-- XORIN b (R109): S[160] is XORed with b, every other bit of S and every other register is unchanged, no round is
applied; XORIN 0 changes nothing and XORIN 1 twice restores S. -/
def Obligations.XorinTogglesInjectionBit : Prop :=
  ∀ s : State,
    (∀ b : Bool, ∃ t, exec (.xorin b) s = .next t ∧ t = { s with S := t.S } ∧
      (∀ i, i < 160 → t.S.getMsbD i = s.S.getMsbD i) ∧ t.S.getMsbD 160 = (s.S.getMsbD 160 ^^ b)) ∧
    exec (.xorin false) s = .next s ∧ execAll [.xorin true, .xorin true] s = .next s

/-! ## The sponge (41_sponge) -/

/-- ABSB b [, last] (R144): in READY and ABSORBING the bit is XORed into S[160], 324 rounds follow if it is the first
or the last bit and 162 otherwise, BITCNT counts it, PHASE moves, and nothing else changes; in every other phase
ERR_SEQ is raised and nothing else changes. -/
def Obligations.AbsbAbsorbsOneBit : Prop :=
  ∀ (b last : Bool) (s : State),
    (s.phase = .ready ∨ s.phase = .absorbing →
      exec (.absb b last) s = .next { s with
        S := advance (s.S ^^^ (if b then 1#161 else 0#161)) (if s.phase = .ready ∨ last = true then 324 else 162)
        bitcnt := s.bitcnt + 1
        phase := if last then .absorbed else .absorbing }) ∧
    (s.phase = .idle ∨ s.phase = .absorbed ∨ s.phase = .squeezed →
      exec (.absb b last) s = .next { s with err := if s.err = .none then .seq else s.err })

/-- ABSY y [, last] (R145): in READY and ABSORBING it does exactly what eight ABSB commands do, for BYTE[7] down to
BYTE[0], of which only the last carries LAST, and BITCNT grows by 8; in every other phase ERR_SEQ is raised and nothing
else changes. -/
def Obligations.AbsyIsEightAbsb : Prop :=
  ∀ (y : Byte) (last : Bool) (s : State),
    (s.phase = .ready ∨ s.phase = .absorbing →
      ∃ t, exec (.absy y last) s = .next t ∧
        execAll [.absb (y.getLsbD 7) false, .absb (y.getLsbD 6) false, .absb (y.getLsbD 5) false,
          .absb (y.getLsbD 4) false, .absb (y.getLsbD 3) false, .absb (y.getLsbD 2) false,
          .absb (y.getLsbD 1) false, .absb (y.getLsbD 0) last] s = .next t ∧
        t = { s with S := t.S, bitcnt := s.bitcnt + 8, phase := if last then .absorbed else .absorbing }) ∧
    (s.phase = .idle ∨ s.phase = .absorbed ∨ s.phase = .squeezed →
      exec (.absy y last) s = .next { s with err := if s.err = .none then .seq else s.err })

/-- FINAL (R146, R151): in READY (after one 324-round pass) and in ABSORBED, 160 rounds follow, D[j] is S[160] after
the (j+1)-th of them, PHASE = SQUEEZED, DV = 1, HV = 0, S keeps the last round's state, and nothing else changes; in
every other phase ERR_SEQ is raised and nothing else changes. -/
def Obligations.FinalSqueezesDigest : Prop :=
  ∀ s : State,
    (∀ S0 : SReg, (s.phase = .ready ∧ S0 = advance s.S 324) ∨ (s.phase = .absorbed ∧ S0 = s.S) →
      ∃ t, exec .final s = .next t ∧
        t = { s with S := advance S0 160, D := t.D, phase := .squeezed, dv := true, hv := false } ∧
        ∀ j, j < 160 → t.D.getMsbD j = (advance S0 (j + 1)).getMsbD 160) ∧
    (s.phase = .idle ∨ s.phase = .absorbing ∨ s.phase = .squeezed →
      exec .final s = .next { s with err := if s.err = .none then .seq else s.err })

/-- SQZ1 (R147), in every state and phase: one round, D moves one place toward index 0 and takes the new S[160] at
D[159], DV = 0, HV = 0, and nothing else changes. -/
def Obligations.SqzOneSqueezesOneBit : Prop :=
  ∀ s : State, ∃ t, exec .sqz1 s = .next t ∧
    t = { s with S := nlfsrRound s.S, D := t.D, dv := false, hv := false } ∧
    (∀ j, j < 159 → t.D.getMsbD j = s.D.getMsbD (j + 1)) ∧ t.D.getMsbD 159 = (nlfsrRound s.S).getMsbD 160

/-- 160 SQZ1 commands leave S and D as FINAL's loop does from ABSORBED, with PHASE unchanged and DV = HV = 0 (R147). -/
def Obligations.RawSqueezeMatchesFinal : Prop :=
  ∀ s : State, ∃ t u, execAll (List.replicate 160 .sqz1) s = .next t ∧
    exec .final { s with phase := .absorbed } = .next u ∧ t = { s with S := u.S, D := u.D, dv := false, hv := false }

/-- The round counts of whole messages (R140, R149): one bit gets one 324-round pass; two or more bits get 324 rounds
for the first, 162 for each between, 324 for the last; no bits get one 324-round pass with nothing injected. -/
def Obligations.AbsorbRoundCounts : Prop :=
  ∀ S : SReg,
    absorb S [] = advance S 324 ∧
    (∀ b, absorb S [b] = advance (inject b S) 324) ∧
    (∀ b mid c, absorb S (b :: mid ++ [c]) =
      advance (inject c (mid.foldl (fun T m => advance (inject m T) 162) (advance (inject b S) 324))) 324)

/-- The one-bit message [0] absorbs to the same state as the empty message from every state, both digests are the
stated 160 bits, and no byte message is [0] (R150). -/
def Obligations.ZeroBitMessageIsEmptyMessage : Prop :=
  (∀ S : SReg, absorb S [false] = absorb S []) ∧ digestOfBits [false] = digest [] ∧
  digest [] = msbBits 0xE50A9A3F562B83F9E1708292B618682ED44345DF#160 ∧ ∀ y : List Byte, msgBits y ≠ [false]

/-- The streamed commands compute the digest of the whole message (R148), for every byte message and every bit message
and from every state: D = digest, DV = 1, PHASE = SQUEEZED, BITCNT = the message's length in bits modulo 2^64; HEXOUT,
HEXIN, ERR and the host's side are unchanged and HV = 0. -/
def Obligations.StreamedHashIsDigest : Prop :=
  ∀ s : State,
    (∀ y : List Byte, ∃ t, execAll (hashBytes y) s = .next t ∧ msbBits t.D = digest y ∧
      t = { s with S := t.S, D := t.D, bitcnt := BitVec.ofNat 64 (8 * y.length), phase := .squeezed,
                   dv := true, hv := false }) ∧
    (∀ m : List Bool, ∃ t, execAll (hashBits m) s = .next t ∧ msbBits t.D = digestOfBits m ∧
      t = { s with S := t.S, D := t.D, bitcnt := BitVec.ofNat 64 m.length, phase := .squeezed,
                   dv := true, hv := false })

/-! ## The codec (42_codec) -/

/-- TOHEX n (R180, R182): for n in 1..160, HEXOUT holds ceil(n/4) lowercase digits of the number whose bits are
D[0..n-1], then 0x00, HEXOUT_LEN their count, HV = 1, and nothing else changes; for any other n ERR_BADLEN is raised
and nothing else changes. -/
def Obligations.TohexRendersDigest : Prop :=
  ∀ (n : Nat) (s : State),
    (1 ≤ n → n ≤ 160 →
      ∃ t, exec (.tohex n) s = .next t ∧
        t = { s with hexout := t.hexout, hexoutLen := BitVec.ofNat 7 ((n + 3) / 4), hv := true } ∧
        ∀ c : Fin 40, t.hexout[c] =
          if c.val < (n + 3) / 4 then
            BitVec.ofNat 8 ("0123456789abcdef".toList.getD
              (s.D.toNat / 2 ^ (160 - n) / 16 ^ ((n + 3) / 4 - 1 - c.val) % 16) '0').toNat
          else 0) ∧
    (n < 1 ∨ 160 < n → exec (.tohex n) s = .next { s with err := if s.err = .none then .badlen else s.err })

/-- HEXIN (R181, R183) on a text of at most 64 characters that is an optional "0x"/"0X" prefix and then hex digits of
values `vs`: D is the number of the first 40 digits (a shorter text fills the last bits), DV = HV = 0, and nothing else
changes. -/
def Obligations.HexinParsesText : Prop :=
  ∀ (s : State) (pre digits : List Byte) (vs : List Nat),
    s.hexinLen.toNat ≤ 64 → s.hexin.toList.take s.hexinLen.toNat = pre ++ digits →
    pre = [] ∨ pre = [0x30, 0x78] ∨ pre = [0x30, 0x58] →
    List.Forall₂ HexDigitValue digits vs →
    exec .hexin s = .next { s with
      D := BitVec.ofNat 160 ((vs.take 40).foldl (fun n v => 16 * n + v) 0)
      dv := false
      hv := false }

/-- HEXIN's refusals (R183, R246, R247, R249): a length above 64 raises ERR_BADLEN whatever the text; otherwise a
character that is no hex digit, after the optional prefix, raises ERR_BADHEX. Nothing else changes. -/
def Obligations.HexinRefusesBadText : Prop :=
  ∀ s : State,
    (64 < s.hexinLen.toNat →
      exec .hexin s = .next { s with err := if s.err = .none then .badlen else s.err }) ∧
    (∀ pre rest : List Byte, s.hexinLen.toNat ≤ 64 → s.hexin.toList.take s.hexinLen.toNat = pre ++ rest →
      pre = [0x30, 0x78] ∨ pre = [0x30, 0x58] ∨
        (pre = [] ∧ ∀ more, rest ≠ 0x30 :: 0x78 :: more ∧ rest ≠ 0x30 :: 0x58 :: more) →
      (∃ c ∈ rest, ∀ v, ¬ HexDigitValue c v) →
      exec .hexin s = .next { s with err := if s.err = .none then .badhex else s.err })

/-- The corner cases of parsing and the round trip (R184): the four texts that give 160 zero bits; fewer than 40 digits
fill the last bits, more than 40 keep the first 40 digits; and parsing the rendering of any 160 bits gives them back. -/
def Obligations.HexTextCornerCases : Prop :=
  (∀ text ∈ [[], [0x30, 0x78], [0x30, 0x58], [0x30]], hexToBits160 text = List.replicate 160 false) ∧
  (∀ (text : List Byte) (vs : List Nat), List.Forall₂ HexDigitValue text vs →
    (text.length < 40 → hexToBits160 text = List.replicate (160 - 4 * text.length) false ++
      vs.flatMap fun v => msbBits (BitVec.ofNat 4 v)) ∧
    (40 < text.length → hexToBits160 text = (vs.take 40).flatMap fun v => msbBits (BitVec.ofNat 4 v))) ∧
  ∀ X : DReg, hexToBits160 (toHex (msbBits X)) = msbBits X

/-- The round trip by commands (L1.8): HEXIN of the text that TOHEX 160 left in HEXOUT restores D. -/
def Obligations.HexinRestoresRenderedDigest : Prop :=
  ∀ s t : State, exec (.tohex 160) s = .next t →
    ∀ u : State, u.hexinLen = 40 → (∀ c : Fin 40, u.hexin[c.val]'(by omega) = t.hexout[c]) →
      exec .hexin u = .next { u with D := s.D, dv := false, hv := false }

/-- HEXIN reads only HEXIN[0..L-1] (R183): two states that agree but for characters at and past HEXIN_LEN have the same
outcome but for those characters. -/
def Obligations.HexinIgnoresCharactersPastLength : Prop :=
  ∀ (s : State) (buf : Vector Byte 64),
    (∀ c : Fin 64, c.val < s.hexinLen.toNat → buf[c] = s.hexin[c]) →
    ∃ t, exec .hexin s = .next t ∧ exec .hexin { s with hexin := buf } = .next { t with hexin := buf }

/-! ## Control and errors (43_control, 60_exceptions) -/

/-- NOP changes nothing (R220); CLRERR clears ERR and changes nothing else (R221). -/
def Obligations.ControlCommands : Prop :=
  ∀ s : State, exec .nop s = .next s ∧ exec .clrerr s = .next { s with err := .none }

/-- Which command raises which error, and when (R245, R246, R247), seen in ERR after a command from a state without an
error; and what a command raises is what its check at acceptance answers. -/
def Obligations.ErrorConditions : Prop :=
  ∀ (i : Instr) (s : State), s.err = .none → ∃ t, exec i s = .next t ∧
    (t.err = .seq ↔
      ((∃ b l, i = .absb b l) ∨ ∃ y l, i = .absy y l) ∧
          (s.phase = .idle ∨ s.phase = .absorbed ∨ s.phase = .squeezed) ∨
        i = .final ∧ (s.phase = .idle ∨ s.phase = .absorbing ∨ s.phase = .squeezed)) ∧
    (t.err = .badlen ↔
      (∃ n, i = .tohex n ∧ (n = 0 ∨ 160 < n)) ∨ (i = .hexin ∧ 64 < s.hexinLen.toNat)) ∧
    (t.err = .badhex ↔
      i = .hexin ∧ s.hexinLen.toNat ≤ 64 ∧
        ∃ c ∈ stripHexPrefix (s.hexin.toList.take s.hexinLen.toNat), ∀ v, ¬ HexDigitValue c v) ∧
    t.err ≠ .busy ∧ t.err ≠ .badop ∧
    acceptError i s = if t.err = .none then none else some t.err

/-- A command that fails a check records the error if ERR was 0 and changes nothing else; a command that passes its
checks never raises one: it leaves ERR as it was, or clears it if it is CLRERR; every command answers a next state
(R240, R242, R250, R251). -/
def Obligations.ErrorsArePreciseAndSticky : Prop :=
  ∀ (i : Instr) (s : State), ∃ t, exec i s = .next t ∧
    (∀ e, acceptError i s = some e → t = { s with err := if s.err = .none then e else s.err }) ∧
    (acceptError i s = none → t.err = if i = .clrerr then .none else s.err)

/-- A recorded error never changes what a command does (R242): two states that differ only in ERR have results that
differ only in ERR. -/
def Obligations.ErrorDoesNotBlock : Prop :=
  ∀ (i : Instr) (s : State) (e : ErrCode), ∃ t e',
    exec i s = .next t ∧ exec i { s with err := e } = .next { t with err := e' }

/-- BITCNT is informational (R26, R153): two states that differ only in BITCNT have results that differ only in
BITCNT. -/
def Obligations.BitcntIsInformational : Prop :=
  ∀ (i : Instr) (s : State) (k : BitVec 64), ∃ t k',
    exec i s = .next t ∧ exec i { s with bitcnt := k } = .next { t with bitcnt := k' }

/-! ## Whole-machine frames (10_state) -/

/-- Which commands can change which register (R21, R22, R24, R25, R26, R28): whatever a command does, a register it is
not listed for keeps its value; no command changes HEXIN, HEXIN_LEN, the pending register or the host's side. -/
def Obligations.CommandsWriteOnlyTheirRegisters : Prop :=
  ∀ (i : Instr) (s t : State), exec i s = .next t →
    (t.S ≠ s.S → i.opcode ∈ [Opcode.INIT, .ADV, .XORIN, .ABSB, .ABSY, .FINAL, .SQZ1]) ∧
    (t.D ≠ s.D → i.opcode ∈ [Opcode.SQZ1, .FINAL, .HEXIN]) ∧
    (t.hexout ≠ s.hexout ∨ t.hexoutLen ≠ s.hexoutLen → i.opcode = .TOHEX) ∧
    (t.bitcnt ≠ s.bitcnt → i.opcode ∈ [Opcode.INIT, .ABSB, .ABSY]) ∧
    (t.phase ≠ s.phase → i.opcode ∈ [Opcode.INIT, .ABSB, .ABSY, .FINAL]) ∧
    (t.dv ≠ s.dv → i.opcode ∈ [Opcode.INIT, .SQZ1, .FINAL, .HEXIN]) ∧
    (t.hv ≠ s.hv → i.opcode ∈ [Opcode.TOHEX, .SQZ1, .FINAL, .HEXIN]) ∧
    t.hexin = s.hexin ∧ t.hexinLen = s.hexinLen ∧ t.pending = s.pending ∧ t.hostOps = s.hostOps ∧
    t.replies = s.replies ∧ t.draws = s.draws

/-- DV and HV after every accepted command (R30, R31). -/
def Obligations.ValidityFlags : Prop :=
  ∀ (i : Instr) (s : State), acceptError i s = none → ∃ t, exec i s = .next t ∧
    t.dv = (if i.opcode = .FINAL then true
      else if i.opcode = .INIT ∨ i.opcode = .SQZ1 ∨ i.opcode = .HEXIN then false else s.dv) ∧
    t.hv = (if i.opcode = .TOHEX then true
      else if i.opcode = .SQZ1 ∨ i.opcode = .FINAL ∨ i.opcode = .HEXIN then false else s.hv)

/-- Every move of PHASE that a command makes (R28, R245): READY by INIT from anywhere, ABSORBING and ABSORBED by ABSB and
ABSY with LAST = 0 and LAST = 1 out of READY or ABSORBING, SQUEEZED by FINAL out of READY or ABSORBED; no command moves
it into IDLE. The reset input's move is in `StepMovesPhase`. -/
def Obligations.PhaseMoves : Prop :=
  ∀ (i : Instr) (s t : State), exec i s = .next t → t.phase ≠ s.phase →
    (i = .init ∧ t.phase = .ready) ∨
    (((∃ b, i = .absb b false) ∨ ∃ y, i = .absy y false) ∧ s.phase = .ready ∧ t.phase = .absorbing) ∨
    (((∃ b, i = .absb b true) ∨ ∃ y, i = .absy y true) ∧ (s.phase = .ready ∨ s.phase = .absorbing) ∧
      t.phase = .absorbed) ∨
    (i = .final ∧ (s.phase = .ready ∨ s.phase = .absorbed) ∧ t.phase = .squeezed)

/-- Every move of PHASE in a step (R28, R36, R280): into IDLE by the reset input on the host's turn (as an entry of the
host's queue, log 11), and otherwise a move of the command that completes in that step. No other host access, and no
wait for a completion, moves it. -/
def Obligations.StepMovesPhase : Prop :=
  ∀ s t : State, step s = .next t → t.phase ≠ s.phase →
    (t.phase = .idle ∧ (∃ rest, s.hostOps = .reset :: rest) ∧ ∀ p, s.pending ≠ some ⟨p, 0⟩) ∨
    ∃ w i, s.pending = some ⟨w, 0⟩ ∧ decode w = .ok i ∧
      ((i = .init ∧ t.phase = .ready) ∨
      (((∃ b, i = .absb b false) ∨ ∃ y, i = .absy y false) ∧ s.phase = .ready ∧ t.phase = .absorbing) ∨
      (((∃ b, i = .absb b true) ∨ ∃ y, i = .absy y true) ∧ (s.phase = .ready ∨ s.phase = .absorbing) ∧
        t.phase = .absorbed) ∨
      (i = .final ∧ (s.phase = .ready ∨ s.phase = .absorbed) ∧ t.phase = .squeezed))

/-- Without INIT and without a later LAST a forgotten LAST is not made good (R285): in ABSORBING, whatever commands without INIT and without LAST follow,
the phase stays ABSORBING, so FINAL still raises ERR_SEQ and leaves D alone. -/
def Obligations.ForgottenLastNeedsInit : Prop :=
  ∀ (is : List Instr) (s : State), s.phase = .absorbing →
    (∀ i ∈ is, i ≠ .init ∧ (∀ b, i ≠ .absb b true) ∧ ∀ y, i ≠ .absy y true) →
    ∃ t, execAll is s = .next t ∧ t.phase = .absorbing ∧
      exec .final t = .next { t with err := if t.err = .none then .seq else t.err }

/-! ## The window and the bus (20_memory) -/

/-- On the host's turn (log 3: whenever no command is about to complete), whether or not a command is pending, an access
goes through exactly if it is 4 bytes wide at BASE plus a mapped offset of R51; any other is a fault: for an address
inside the window (another width, misaligned, unmapped) R52's bus error, which has no successor state (R52, R248). That
an address outside the window is a fault too, with a name of its own that comes first, is the model's choice (log 6,
log 7). -/
def Obligations.BusErrorsExactly : Prop :=
  ∀ (s : State) (addr width : Nat) (v : Word) (rest : List HostOp), (∀ p, s.pending ≠ some ⟨p, 0⟩) →
    s.hostOps = .write addr width v :: rest ∨ s.hostOps = .read addr width :: rest →
    ((width = 4 ∧ ∃ off, addr = Config.base + off ∧ MappedOffset off) → ∃ t, step s = .next t) ∧
    (¬ (width = 4 ∧ ∃ off, addr = Config.base + off ∧ MappedOffset off) →
      ∃ f, step s = .fault f ∧ (f = .outsideWindow ↔ addr < Config.base ∨ Config.base + 256 ≤ addr))

/-- Reads while BUSY = 0 return the register's value, packed as R53 to R55 and R29 say, and change nothing but the
record of replies (R51, R53, R54, R55, R57, R58). -/
def Obligations.IdleReadsReturnRegisters : Prop :=
  ∀ (s : State) (off : Nat) (rest : List HostOp) (phase err : Nat), s.pending = none →
    s.hostOps = .read (Config.base + off) 4 :: rest → MappedOffset off →
    phase = (match s.phase with | .idle => 0 | .ready => 1 | .absorbing => 2 | .absorbed => 3 | .squeezed => 4) →
    err = (match s.err with | .none => 0 | .busy => 1 | .badop => 2 | .seq => 3 | .badlen => 4 | .badhex => 5) →
    ∃ v : Word, step s = .next { s with hostOps := rest, replies := (Config.base + off, v) :: s.replies } ∧
      (off = 0x000 → v = 0) ∧
      (off = 0x004 → v.toNat =
        (if s.dv then 2 else 0) + (if s.hv then 4 else 0) + 16 * phase + 256 * err) ∧
      (off = 0x008 → v.toNat = s.bitcnt.toNat % 2 ^ 32) ∧
      (off = 0x00C → v.toNat = s.bitcnt.toNat / 2 ^ 32) ∧
      (off = 0x010 → v.toNat = s.hexoutLen.toNat) ∧
      (off = 0x014 → v = s.hexinLen) ∧
      (∀ w : Fin 6, off = 0x020 + 4 * w.val → ∀ j, j < 32 → v.getLsbD (31 - j) = s.S.getMsbD (32 * w.val + j)) ∧
      (∀ w : Fin 5, off = 0x040 + 4 * w.val → ∀ j, j < 32 → v.getLsbD (31 - j) = s.D.getMsbD (32 * w.val + j)) ∧
      (∀ (w : Fin 10) (b : Fin 4), off = 0x060 + 4 * w.val →
        v.extractLsb' (8 * b.val) 8 = s.hexout[4 * w.val + b.val]) ∧
      (∀ (w : Fin 16) (b : Fin 4), off = 0x0A0 + 4 * w.val →
        v.extractLsb' (8 * b.val) 8 = s.hexin[4 * w.val + b.val])

/-- Reads while BUSY = 1 (R60): STATUS has BUSY = 1, ERR exact and its reserved bits 0; HEXIN and HEXIN_LEN are exact;
CMD is 0; no register changes. What the other registers and fields read as is not said. A host turn while a command is
pending is `some ⟨p, d + 1⟩`, and that STATUS's reserved bits read 0 is inferred: the model's choices (log 3, log 4). -/
def Obligations.BusyReadsExactParts : Prop :=
  ∀ (s : State) (p : Word) (d off : Nat) (rest : List HostOp) (err : Nat), s.pending = some ⟨p, d + 1⟩ →
    s.hostOps = .read (Config.base + off) 4 :: rest → MappedOffset off →
    err = (match s.err with | .none => 0 | .busy => 1 | .badop => 2 | .seq => 3 | .badlen => 4 | .badhex => 5) →
    ∃ (v : Word) (draws : Nat),
      step s = .next { s with
        pending := some ⟨p, d⟩, hostOps := rest, replies := (Config.base + off, v) :: s.replies, draws := draws } ∧
      (off = 0x000 → v = 0) ∧
      (off = 0x004 → v.getLsbD 0 = true ∧ v.toNat / 256 = err ∧ v.getLsbD 3 = false ∧
        v.getLsbD 7 = false) ∧
      (off = 0x014 → v = s.hexinLen) ∧
      (∀ (w : Fin 16) (b : Fin 4), off = 0x0A0 + 4 * w.val →
        v.extractLsb' (8 * b.val) 8 = s.hexin[4 * w.val + b.val])

/-- A host write to STATEw while BUSY = 0 (R53, R54, R58): S[32w+j] takes bit 31-j for every 32w+j <= 160, so the low
31 bits written to STATE5 are ignored; the other bits of S and every other register keep their values. -/
def Obligations.StateWritesSetWord : Prop :=
  ∀ (s : State) (w : Fin 6) (v : Word) (rest : List HostOp), s.pending = none →
    s.hostOps = .write (Config.base + (0x020 + 4 * w.val)) 4 v :: rest →
    ∃ t, step s = .next t ∧ t = { s with S := t.S, hostOps := rest } ∧
      (∀ j, j < 32 → 32 * w.val + j ≤ 160 → t.S.getMsbD (32 * w.val + j) = v.getLsbD (31 - j)) ∧
      (∀ i, i ≤ 160 → (i < 32 * w.val ∨ 32 * w.val + 32 ≤ i) → t.S.getMsbD i = s.S.getMsbD i)

/-- A host write to HEXINw or HEXIN_LEN while BUSY = 0 (R25, R55, R58): the four characters of the word, or the whole
32-bit length, take the value; every other character and register keeps its value. -/
def Obligations.HexinWritesSetCharacters : Prop :=
  ∀ (s : State) (v : Word) (rest : List HostOp), s.pending = none →
    (∀ w : Fin 16, s.hostOps = .write (Config.base + (0x0A0 + 4 * w.val)) 4 v :: rest →
      ∃ t, step s = .next t ∧ t = { s with hexin := t.hexin, hostOps := rest } ∧
        (∀ b : Fin 4, t.hexin[4 * w.val + b.val] = v.extractLsb' (8 * b.val) 8) ∧
        (∀ c : Fin 64, c.val < 4 * w.val ∨ 4 * w.val + 4 ≤ c.val → t.hexin[c] = s.hexin[c])) ∧
    (s.hostOps = .write (Config.base + 0x014) 4 v :: rest → step s = .next { s with hexinLen := v, hostOps := rest })

/-- Host writes to the read-only registers are ignored without an error, whether or not a command is pending (R57,
R59). That a host turn while a command is pending is `some ⟨p, d + 1⟩` is the model's (log 3). -/
def Obligations.ReadOnlyWritesIgnored : Prop :=
  ∀ (s : State) (off : Nat) (v : Word) (rest : List HostOp), s.hostOps = .write (Config.base + off) 4 v :: rest →
    off ∈ [0x004, 0x008, 0x00C, 0x010, 0x040, 0x044, 0x048, 0x04C, 0x050, 0x060, 0x064, 0x068, 0x06C, 0x070, 0x074,
      0x078, 0x07C, 0x080, 0x084] →
    (s.pending = none → step s = .next { s with hostOps := rest }) ∧
    (∀ p d, s.pending = some ⟨p, d + 1⟩ → step s = .next { s with pending := some ⟨p, d⟩, hostOps := rest })

/-- A host write while BUSY = 1 to CMD, STATE0..5, HEXIN0..15 or HEXIN_LEN is refused: ERR_BUSY is recorded if no error
was, the value is discarded, the pending command stays and nothing else changes (R59, R243). That such a host turn is `some ⟨p, d + 1⟩` is the
model's (log 3). -/
def Obligations.BusyWritesRefused : Prop :=
  ∀ (s : State) (p : Word) (d off : Nat) (v : Word) (rest : List HostOp), s.pending = some ⟨p, d + 1⟩ →
    s.hostOps = .write (Config.base + off) 4 v :: rest →
    off = 0x000 ∨ off = 0x014 ∨ (∃ w : Fin 6, off = 0x020 + 4 * w.val) ∨ (∃ w : Fin 16, off = 0x0A0 + 4 * w.val) →
    step s = .next { s with
      pending := some ⟨p, d⟩, hostOps := rest, err := if s.err = .none then .busy else s.err }

/-! ## Reset and the command lifecycle (70_reset_and_hazards) -/

/-- The reset values (R36), as registers and as read through STATE0..5 and STATUS. -/
def Obligations.ResetValues : Prop :=
  State.reset.S = 0 ∧ State.reset.D = 0 ∧ (∀ c : Fin 40, State.reset.hexout[c] = 0) ∧ State.reset.hexoutLen = 0 ∧
  (∀ c : Fin 64, State.reset.hexin[c] = 0) ∧ State.reset.hexinLen = 0 ∧ State.reset.bitcnt = 0 ∧
  State.reset.phase = .idle ∧ State.reset.busy = false ∧ State.reset.dv = false ∧ State.reset.hv = false ∧
  State.reset.err = .none ∧ State.reset.pending = none ∧
  (∀ w : Fin 6, readStateWord State.reset.S w = 0) ∧ statusIdle State.reset = 0

/-- The reset input, on the host's turn and whether or not a command is pending, gives every register its R36 value and
abandons the pending command with none of its effects (R280). That reset comes in the host's queue and keeps that queue,
the replies and the draw counter is the model's (log 11). -/
def Obligations.ResetAbandonsPendingCommand : Prop :=
  ∀ (s : State) (rest : List HostOp), s.hostOps = .reset :: rest →
    s.pending = none ∨ (∃ p d, s.pending = some ⟨p, d + 1⟩) →
    ∃ t, step s = .next t ∧ t.AtReset ∧ t.hostOps = rest ∧ t.replies = s.replies ∧ t.draws = s.draws

/-- A CMD write (R283, R249): refused while busy; else checked for BADOP and then the command's own checks, the first
failing one raised; else accepted, which makes it pending and changes no register. The delay a command gets, and that a host turn while busy
is `some ⟨p, d + 1⟩`, are the model's (log 3). -/
def Obligations.CommandWriteLifecycle : Prop :=
  ∀ (s : State) (w : Word) (rest : List HostOp), s.hostOps = .write (Config.base + 0x000) 4 w :: rest →
    (∀ p d, s.pending = some ⟨p, d + 1⟩ →
      step s = .next { s with
        pending := some ⟨p, d⟩, hostOps := rest, err := if s.err = .none then .busy else s.err }) ∧
    (s.pending = none →
      (∀ e, decode w = .error e →
        step s = .next { s with hostOps := rest, err := if s.err = .none then .badop else s.err }) ∧
      ∀ i, decode w = .ok i →
        (∀ e, acceptError i s = some e →
          step s = .next { s with hostOps := rest, err := if s.err = .none then e else s.err }) ∧
        (acceptError i s = none → ∃ d,
          step s = .next { s with hostOps := rest, pending := some ⟨w, d⟩, draws := s.draws + 1 }))

/-- When the pending command's delay has run out and its word decodes to a command, the step is that command's `exec`
on the state with the pending register emptied; otherwise the step is the host's turn, with the delay counted down
(R283). The delay is the model's form of the open LATENCY (log 3). -/
def Obligations.StepRunsDecodedCommand : Prop :=
  ∀ s : State,
    (∀ w i, s.pending = some ⟨w, 0⟩ → decode w = .ok i → step s = exec i { s with pending := none }) ∧
    (∀ w d, s.pending = some ⟨w, d + 1⟩ → step s = hostTurn { s with pending := some ⟨w, d⟩ }) ∧
    (s.pending = none → step s = hostTurn s)

/-- While a command is pending, no step before its completion changes any register but ERR, except the reset input
(R34, R59, R60, R283): the state the command started from is the state it completes on. The delay is the
model's (log 3), and so is not storing R34's snapshot, which this makes harmless (log 8). -/
def Obligations.PendingFreezesRegisters : Prop :=
  ∀ (s t : State) (p : Word) (d : Nat), s.pending = some ⟨p, d + 1⟩ → (∀ rest, s.hostOps ≠ .reset :: rest) →
    step s = .next t →
    t = { s with pending := some ⟨p, d⟩, err := t.err, hostOps := t.hostOps, replies := t.replies, draws := t.draws } ∧
    (t.err ≠ s.err → s.err = .none ∧ t.err = .busy)

/-- An accepted command completes after finitely many host steps (R283): with the host waiting, after the delay and one
more step its effect has happened whole, the pending register is empty and the host still has its WAIT to finish. The delay is
the model's form of the open LATENCY (log 3). -/
def Obligations.PendingCommandCompletes : Prop :=
  ∀ (s : State) (w : Word) (d : Nat) (i : Instr) (rest : List HostOp), s.pending = some ⟨w, d⟩ → decode w = .ok i →
    s.hostOps = .wait :: rest →
    ∃ t u, exec i { s with pending := none } = .next t ∧
      runSteps (d + 1) s = .next u ∧ u.block = t.block ∧ u.hostOps = .wait :: rest

/-- A step never refuses, and it answers a next state unless it is the host's turn and the host's own access is a bus
error of R52 or lies outside the window (R240, R248, R250). That an access outside the window stops the run is the
model's choice (log 7), and so is the answer on a pending word that was never accepted (log 8). -/
def Obligations.StepAnswersUnlessBusError : Prop :=
  ∀ s : State, (∃ t, step s = .next t) ∨
    ∃ addr width rest f, ((∃ v, s.hostOps = .write addr width v :: rest) ∨ s.hostOps = .read addr width :: rest) ∧
      (∀ p, s.pending ≠ some ⟨p, 0⟩) ∧ step s = .fault f ∧
      ((f ≠ .outsideWindow ∧ ∃ off, addr = Config.base + off ∧ off < 256 ∧ ¬ (width = 4 ∧ MappedOffset off)) ∨
        (f = .outsideWindow ∧ (addr < Config.base ∨ Config.base + 256 ≤ addr)))

/-- A whole program of command lines, each a CMD write and a WAIT, run through the bus, the encoder, the decoder and
the engine with any latencies and any BASE, leaves the block as the commands leave it one after the other; its run ends
as R289 says, unless the program is empty and so has no STATUS read (R92, R283, R289). -/
def Obligations.BusProgramRunsCommands : Prop :=
  ∀ (is : List Instr) (s : State), (∀ i ∈ is, i.WellFormed) → s.Quiet → s.hostOps = commandLines is →
    ∃ n t u, runSteps n s = .next t ∧ execAll is s = .next u ∧ t.block = u.block ∧ t.hostOps = [] ∧
      (is ≠ [] → RunEnds s n t)

/-- LOADHEX (R93) through the bus, with any latency: for a text of at most 64 hex digits the run ends, HEXIN holds the
text and HEXIN_LEN its length (R55), D is the number of its first 40 digits (R183), DV = HV = 0, and ERR, S, PHASE, BITCNT and HEXOUT
are as before. -/
def Obligations.LoadhexProgramParsesText : Prop :=
  ∀ (text : List Byte) (vs : List Nat) (s : State), text.length ≤ 64 → List.Forall₂ HexDigitValue text vs →
    s.Quiet → s.hostOps = loadhex text →
    ∃ n t, RunEnds s n t ∧
      t = { s with
        D := BitVec.ofNat 160 ((vs.take 40).foldl (fun n v => 16 * n + v) 0)
        hexin := t.hexin
        hexinLen := BitVec.ofNat 32 text.length
        dv := false
        hv := false
        hostOps := []
        replies := t.replies
        draws := t.draws } ∧
      ∀ c : Fin 64, ∀ h : c.val < text.length, t.hexin[c] = text[c.val]

/-- INIT completed from a quiet state without an error gives Ready; AtReset implies Quiet and NoErr (R291). -/
def Obligations.LaunchPremises : Prop :=
  (∀ s : State, s.Quiet → s.NoErr → ∃ t, exec .init s = .next t ∧ t.Ready) ∧
  ∀ s : State, s.AtReset → s.Quiet ∧ s.NoErr

/-- The block's invariant is kept by every step, from every state that has it: HEXOUT_LEN at most 40 and zeros past it,
HV only with HEXOUT rendering D, DV only in SQUEEZED, BITCNT 0 before the first bit, and only accepted commands
pending. -/
def Obligations.StepKeepsInvariant : Prop :=
  ∀ s t : State, s.Inv → step s = .next t → t.Inv

/-- The state after reset has the block's invariant. -/
def Obligations.ResetHasInvariant : Prop := State.reset.Inv
end

