-- ==== Sys2Proof/Laws/Bits.lean ====
section
/-! SUPPORT. What the bit operations do, bit by bit: shifting in at the tail, packing and unpacking, injection. -/

namespace Sys2Proof.Machine

/-- Shifting a bit in at the tail moves every bit one place toward index 0. -/
theorem getMsbD_shiftConcat {n : Nat} (x : BitVec n) (b : Bool) (i : Nat) (h : i < n) :
    (x.shiftConcat b).getMsbD i = if i + 1 = n then b else x.getMsbD (i + 1) := by
  simp only [BitVec.getMsbD, BitVec.getLsbD_shiftConcat]
  by_cases hi : i + 1 = n
  · have : n - 1 - i = 0 := by omega
    simp [hi, h, this]
    omega
  · have h1 : n - 1 - i ≠ 0 := by omega
    have h2 : n - 1 - i - 1 = n - 1 - (i + 1) := by omega
    have h3 : i + 1 < n := by omega
    simp [hi, h, h1, h2, h3]
    omega

@[simp] theorem msbBits_length {n : Nat} (x : BitVec n) : (msbBits x).length = n := by
  simp [msbBits]

theorem msbBits_getElem {n : Nat} (x : BitVec n) (i : Nat) (h : i < (msbBits x).length) :
    (msbBits x)[i] = x.getMsbD i := by
  simp [msbBits]

/-- Two registers with the same bits in sequence order are equal. -/
theorem eq_of_getMsbD_eq {n : Nat} {x y : BitVec n} (h : ∀ i, i < n → x.getMsbD i = y.getMsbD i) : x = y := by
  apply BitVec.eq_of_getMsbD_eq
  intro i hi
  exact h i hi

/-- Shifting a whole sequence in: an early bit of `x` is pushed out, a bit of the sequence lands in order. -/
theorem getMsbD_foldl_shiftConcat {n : Nat} (bits : List Bool) (x : BitVec n) (i : Nat) (hi : i < n) :
    (bits.foldl BitVec.shiftConcat x).getMsbD i =
      if i + bits.length < n then x.getMsbD (i + bits.length)
      else bits[i + bits.length - n]?.getD false := by
  induction bits generalizing x with
  | nil => simp [hi]
  | cons b rest ih =>
    simp only [List.foldl_cons, ih, List.length_cons]
    by_cases h1 : i + (rest.length + 1) < n
    · have h2 : i + rest.length < n := by omega
      have h3 : i + rest.length + 1 ≠ n := by omega
      rw [if_pos h2, if_pos h1, getMsbD_shiftConcat x b _ h2, if_neg h3, Nat.add_assoc]
    · rw [if_neg h1]
      by_cases h2 : i + rest.length < n
      · have h3 : i + rest.length + 1 = n := by omega
        have h4 : i + (rest.length + 1) - n = 0 := by omega
        rw [if_pos h2, getMsbD_shiftConcat x b _ h2, if_pos h3, h4]
        simp
      · have h4 : i + (rest.length + 1) - n = (i + rest.length - n) + 1 := by omega
        rw [if_neg h2, h4, List.getElem?_cons_succ]

/-- A register is filled by a sequence of its own length, first bit at index 0 (R23). -/
theorem getMsbD_ofMsbBits {n : Nat} (bits : List Bool) (h : bits.length = n) (i : Nat) (hi : i < n) :
    (ofMsbBits n bits).getMsbD i = bits[i]'(by omega) := by
  rw [ofMsbBits, getMsbD_foldl_shiftConcat bits _ i hi]
  have h1 : ¬ i + bits.length < n := by omega
  have h2 : i + bits.length - n = i := by omega
  have h3 : i < bits.length := by omega
  rw [if_neg h1, h2]
  simp [h3]

/-- Reading a register's bits and packing them again gives the register. -/
@[simp] theorem ofMsbBits_msbBits {n : Nat} (x : BitVec n) : ofMsbBits n (msbBits x) = x := by
  apply eq_of_getMsbD_eq
  intro i hi
  rw [getMsbD_ofMsbBits _ (msbBits_length x) i hi, msbBits_getElem]

/-- Packing a sequence of the register's length and reading it back gives the sequence. -/
theorem msbBits_ofMsbBits {n : Nat} (bits : List Bool) (h : bits.length = n) : msbBits (ofMsbBits n bits) = bits := by
  apply List.ext_getElem
  · simp [h]
  · intro i h1 h2
    rw [msbBits_getElem, getMsbD_ofMsbBits bits h i (by omega)]

/-- Injection touches bit 160 only (R109). -/
theorem getMsbD_inject (b : Bool) (S : SReg) (i : Nat) (hi : i ≤ 160) :
    (inject b S).getMsbD i = if i = 160 then (S.getMsbD 160 ^^ b) else S.getMsbD i := by
  by_cases h : i = 160
  · subst h
    simp [inject, BitVec.getMsbD]
  · have h1 : 160 - i ≠ 0 := by omega
    simp [inject, BitVec.getMsbD, BitVec.getLsbD_ofBool, h, h1]

/-- Injecting twice the same bit restores S (R109). -/
theorem inject_inject (b : Bool) (S : SReg) : inject b (inject b S) = S := by
  simp [inject]

theorem inject_false (S : SReg) : inject false S = S := by
  simp [inject]

@[simp] theorem byteBits_length (y : Byte) : (byteBits y).length = 8 := by
  simp [byteBits]

end Sys2Proof.Machine
end

