-- ==== Sys2Proof/Laws/State.lean ====
section
/-! SUPPORT. One lemma per field per shared update of the state. -/

namespace Sys2Proof.Machine

theorem firstError_none (e : ErrCode) : firstError .none e = e := rfl

/-- The first error is kept (R242). -/
theorem firstError_of_ne {e e' : ErrCode} (h : e ≠ .none) : firstError e e' = e := by
  cases e <;> first | exact absurd rfl h | rfl

theorem firstError_eq_ite (e e' : ErrCode) : firstError e e' = if e = .none then e' else e := by
  cases e <;> rfl

@[simp] theorem raiseError_S (e : ErrCode) (s : State) : (raiseError e s).S = s.S := rfl
@[simp] theorem raiseError_D (e : ErrCode) (s : State) : (raiseError e s).D = s.D := rfl
@[simp] theorem raiseError_hexout (e : ErrCode) (s : State) : (raiseError e s).hexout = s.hexout := rfl
@[simp] theorem raiseError_hexoutLen (e : ErrCode) (s : State) : (raiseError e s).hexoutLen = s.hexoutLen := rfl
@[simp] theorem raiseError_hexin (e : ErrCode) (s : State) : (raiseError e s).hexin = s.hexin := rfl
@[simp] theorem raiseError_hexinLen (e : ErrCode) (s : State) : (raiseError e s).hexinLen = s.hexinLen := rfl
@[simp] theorem raiseError_bitcnt (e : ErrCode) (s : State) : (raiseError e s).bitcnt = s.bitcnt := rfl
@[simp] theorem raiseError_phase (e : ErrCode) (s : State) : (raiseError e s).phase = s.phase := rfl
@[simp] theorem raiseError_dv (e : ErrCode) (s : State) : (raiseError e s).dv = s.dv := rfl
@[simp] theorem raiseError_hv (e : ErrCode) (s : State) : (raiseError e s).hv = s.hv := rfl
@[simp] theorem raiseError_err (e : ErrCode) (s : State) : (raiseError e s).err = firstError s.err e := rfl
@[simp] theorem raiseError_pending (e : ErrCode) (s : State) : (raiseError e s).pending = s.pending := rfl
@[simp] theorem raiseError_hostOps (e : ErrCode) (s : State) : (raiseError e s).hostOps = s.hostOps := rfl
@[simp] theorem raiseError_replies (e : ErrCode) (s : State) : (raiseError e s).replies = s.replies := rfl
@[simp] theorem raiseError_draws (e : ErrCode) (s : State) : (raiseError e s).draws = s.draws := rfl

@[simp] theorem clearError_S (s : State) : (clearError s).S = s.S := rfl
@[simp] theorem clearError_D (s : State) : (clearError s).D = s.D := rfl
@[simp] theorem clearError_hexout (s : State) : (clearError s).hexout = s.hexout := rfl
@[simp] theorem clearError_hexoutLen (s : State) : (clearError s).hexoutLen = s.hexoutLen := rfl
@[simp] theorem clearError_hexin (s : State) : (clearError s).hexin = s.hexin := rfl
@[simp] theorem clearError_hexinLen (s : State) : (clearError s).hexinLen = s.hexinLen := rfl
@[simp] theorem clearError_bitcnt (s : State) : (clearError s).bitcnt = s.bitcnt := rfl
@[simp] theorem clearError_phase (s : State) : (clearError s).phase = s.phase := rfl
@[simp] theorem clearError_dv (s : State) : (clearError s).dv = s.dv := rfl
@[simp] theorem clearError_hv (s : State) : (clearError s).hv = s.hv := rfl
@[simp] theorem clearError_err (s : State) : (clearError s).err = .none := rfl
@[simp] theorem clearError_pending (s : State) : (clearError s).pending = s.pending := rfl
@[simp] theorem clearError_hostOps (s : State) : (clearError s).hostOps = s.hostOps := rfl
@[simp] theorem clearError_replies (s : State) : (clearError s).replies = s.replies := rfl
@[simp] theorem clearError_draws (s : State) : (clearError s).draws = s.draws := rfl

@[simp] theorem absorbBit_S (bit last : Bool) (s : State) :
    (absorbBit bit last s).S = advance (inject bit s.S) (absorbRounds s.phase last) := rfl
@[simp] theorem absorbBit_D (bit last : Bool) (s : State) : (absorbBit bit last s).D = s.D := rfl
@[simp] theorem absorbBit_hexout (bit last : Bool) (s : State) : (absorbBit bit last s).hexout = s.hexout := rfl
@[simp] theorem absorbBit_hexoutLen (bit last : Bool) (s : State) : (absorbBit bit last s).hexoutLen = s.hexoutLen := rfl
@[simp] theorem absorbBit_hexin (bit last : Bool) (s : State) : (absorbBit bit last s).hexin = s.hexin := rfl
@[simp] theorem absorbBit_hexinLen (bit last : Bool) (s : State) : (absorbBit bit last s).hexinLen = s.hexinLen := rfl
@[simp] theorem absorbBit_bitcnt (bit last : Bool) (s : State) : (absorbBit bit last s).bitcnt = s.bitcnt := rfl
@[simp] theorem absorbBit_phase (bit last : Bool) (s : State) : (absorbBit bit last s).phase = phaseAfterBit last := rfl
@[simp] theorem absorbBit_dv (bit last : Bool) (s : State) : (absorbBit bit last s).dv = s.dv := rfl
@[simp] theorem absorbBit_hv (bit last : Bool) (s : State) : (absorbBit bit last s).hv = s.hv := rfl
@[simp] theorem absorbBit_err (bit last : Bool) (s : State) : (absorbBit bit last s).err = s.err := rfl
@[simp] theorem absorbBit_pending (bit last : Bool) (s : State) : (absorbBit bit last s).pending = s.pending := rfl
@[simp] theorem absorbBit_hostOps (bit last : Bool) (s : State) : (absorbBit bit last s).hostOps = s.hostOps := rfl
@[simp] theorem absorbBit_replies (bit last : Bool) (s : State) : (absorbBit bit last s).replies = s.replies := rfl
@[simp] theorem absorbBit_draws (bit last : Bool) (s : State) : (absorbBit bit last s).draws = s.draws := rfl

@[simp] theorem platformReset_S (s : State) : (platformReset s).S = State.reset.S := rfl
@[simp] theorem platformReset_D (s : State) : (platformReset s).D = State.reset.D := rfl
@[simp] theorem platformReset_hexout (s : State) : (platformReset s).hexout = State.reset.hexout := rfl
@[simp] theorem platformReset_hexoutLen (s : State) : (platformReset s).hexoutLen = State.reset.hexoutLen := rfl
@[simp] theorem platformReset_hexin (s : State) : (platformReset s).hexin = State.reset.hexin := rfl
@[simp] theorem platformReset_hexinLen (s : State) : (platformReset s).hexinLen = State.reset.hexinLen := rfl
@[simp] theorem platformReset_bitcnt (s : State) : (platformReset s).bitcnt = State.reset.bitcnt := rfl
@[simp] theorem platformReset_phase (s : State) : (platformReset s).phase = State.reset.phase := rfl
@[simp] theorem platformReset_dv (s : State) : (platformReset s).dv = State.reset.dv := rfl
@[simp] theorem platformReset_hv (s : State) : (platformReset s).hv = State.reset.hv := rfl
@[simp] theorem platformReset_err (s : State) : (platformReset s).err = State.reset.err := rfl
@[simp] theorem platformReset_pending (s : State) : (platformReset s).pending = State.reset.pending := rfl
@[simp] theorem platformReset_hostOps (s : State) : (platformReset s).hostOps = s.hostOps := rfl
@[simp] theorem platformReset_replies (s : State) : (platformReset s).replies = s.replies := rfl
@[simp] theorem platformReset_draws (s : State) : (platformReset s).draws = s.draws := rfl

@[simp] theorem block_S (s : State) : s.block.S = s.S := rfl
@[simp] theorem block_D (s : State) : s.block.D = s.D := rfl
@[simp] theorem block_hexout (s : State) : s.block.hexout = s.hexout := rfl
@[simp] theorem block_hexoutLen (s : State) : s.block.hexoutLen = s.hexoutLen := rfl
@[simp] theorem block_hexin (s : State) : s.block.hexin = s.hexin := rfl
@[simp] theorem block_hexinLen (s : State) : s.block.hexinLen = s.hexinLen := rfl
@[simp] theorem block_bitcnt (s : State) : s.block.bitcnt = s.bitcnt := rfl
@[simp] theorem block_phase (s : State) : s.block.phase = s.phase := rfl
@[simp] theorem block_dv (s : State) : s.block.dv = s.dv := rfl
@[simp] theorem block_hv (s : State) : s.block.hv = s.hv := rfl
@[simp] theorem block_err (s : State) : s.block.err = s.err := rfl
@[simp] theorem block_pending (s : State) : s.block.pending = s.pending := rfl
@[simp] theorem block_hostOps (s : State) : s.block.hostOps = [] := rfl
@[simp] theorem block_replies (s : State) : s.block.replies = [] := rfl
@[simp] theorem block_draws (s : State) : s.block.draws = 0 := rfl

@[simp] theorem withFetchWord_S (s : State) (nbits w : Nat) : (s.withFetchWord nbits w).S = s.S := rfl
@[simp] theorem withFetchWord_D (s : State) (nbits w : Nat) : (s.withFetchWord nbits w).D = s.D := rfl
@[simp] theorem withFetchWord_hexout (s : State) (nbits w : Nat) : (s.withFetchWord nbits w).hexout = s.hexout := rfl
@[simp] theorem withFetchWord_hexoutLen (s : State) (nbits w : Nat) : (s.withFetchWord nbits w).hexoutLen = s.hexoutLen := rfl
@[simp] theorem withFetchWord_hexin (s : State) (nbits w : Nat) : (s.withFetchWord nbits w).hexin = s.hexin := rfl
@[simp] theorem withFetchWord_hexinLen (s : State) (nbits w : Nat) : (s.withFetchWord nbits w).hexinLen = s.hexinLen := rfl
@[simp] theorem withFetchWord_bitcnt (s : State) (nbits w : Nat) : (s.withFetchWord nbits w).bitcnt = s.bitcnt := rfl
@[simp] theorem withFetchWord_phase (s : State) (nbits w : Nat) : (s.withFetchWord nbits w).phase = s.phase := rfl
@[simp] theorem withFetchWord_dv (s : State) (nbits w : Nat) : (s.withFetchWord nbits w).dv = s.dv := rfl
@[simp] theorem withFetchWord_hv (s : State) (nbits w : Nat) : (s.withFetchWord nbits w).hv = s.hv := rfl
@[simp] theorem withFetchWord_err (s : State) (nbits w : Nat) : (s.withFetchWord nbits w).err = s.err := rfl
@[simp] theorem withFetchWord_pending (s : State) (nbits w : Nat) :
    (s.withFetchWord nbits w).pending = some ⟨tableWord nbits w, 0⟩ := rfl
@[simp] theorem withFetchWord_hostOps (s : State) (nbits w : Nat) : (s.withFetchWord nbits w).hostOps = s.hostOps := rfl
@[simp] theorem withFetchWord_replies (s : State) (nbits w : Nat) : (s.withFetchWord nbits w).replies = s.replies := rfl
@[simp] theorem withFetchWord_draws (s : State) (nbits w : Nat) : (s.withFetchWord nbits w).draws = s.draws := rfl

/-- A read changes the replies and the draw counter only (R58). -/
theorem readReg_eq (addr : Nat) (r : WindowReg) (s : State) :
    ∃ v draws, readReg addr r s = { s with replies := (addr, v) :: s.replies, draws := draws } := by
  unfold readReg
  split
  · exact ⟨_, _, rfl⟩
  · exact ⟨_, s.draws, rfl⟩

@[simp] theorem readReg_S (addr : Nat) (r : WindowReg) (s : State) : (readReg addr r s).S = s.S := by
  obtain ⟨v, d, h⟩ := readReg_eq addr r s
  rw [h]

@[simp] theorem readReg_D (addr : Nat) (r : WindowReg) (s : State) : (readReg addr r s).D = s.D := by
  obtain ⟨v, d, h⟩ := readReg_eq addr r s
  rw [h]

@[simp] theorem readReg_hexout (addr : Nat) (r : WindowReg) (s : State) : (readReg addr r s).hexout = s.hexout := by
  obtain ⟨v, d, h⟩ := readReg_eq addr r s
  rw [h]

@[simp] theorem readReg_hexoutLen (addr : Nat) (r : WindowReg) (s : State) : (readReg addr r s).hexoutLen = s.hexoutLen := by
  obtain ⟨v, d, h⟩ := readReg_eq addr r s
  rw [h]

@[simp] theorem readReg_hexin (addr : Nat) (r : WindowReg) (s : State) : (readReg addr r s).hexin = s.hexin := by
  obtain ⟨v, d, h⟩ := readReg_eq addr r s
  rw [h]

@[simp] theorem readReg_hexinLen (addr : Nat) (r : WindowReg) (s : State) : (readReg addr r s).hexinLen = s.hexinLen := by
  obtain ⟨v, d, h⟩ := readReg_eq addr r s
  rw [h]

@[simp] theorem readReg_bitcnt (addr : Nat) (r : WindowReg) (s : State) : (readReg addr r s).bitcnt = s.bitcnt := by
  obtain ⟨v, d, h⟩ := readReg_eq addr r s
  rw [h]

@[simp] theorem readReg_phase (addr : Nat) (r : WindowReg) (s : State) : (readReg addr r s).phase = s.phase := by
  obtain ⟨v, d, h⟩ := readReg_eq addr r s
  rw [h]

@[simp] theorem readReg_dv (addr : Nat) (r : WindowReg) (s : State) : (readReg addr r s).dv = s.dv := by
  obtain ⟨v, d, h⟩ := readReg_eq addr r s
  rw [h]

@[simp] theorem readReg_hv (addr : Nat) (r : WindowReg) (s : State) : (readReg addr r s).hv = s.hv := by
  obtain ⟨v, d, h⟩ := readReg_eq addr r s
  rw [h]

@[simp] theorem readReg_err (addr : Nat) (r : WindowReg) (s : State) : (readReg addr r s).err = s.err := by
  obtain ⟨v, d, h⟩ := readReg_eq addr r s
  rw [h]

@[simp] theorem readReg_pending (addr : Nat) (r : WindowReg) (s : State) : (readReg addr r s).pending = s.pending := by
  obtain ⟨v, d, h⟩ := readReg_eq addr r s
  rw [h]

@[simp] theorem readReg_hostOps (addr : Nat) (r : WindowReg) (s : State) : (readReg addr r s).hostOps = s.hostOps := by
  obtain ⟨v, d, h⟩ := readReg_eq addr r s
  rw [h]

/-- BUSY is 0 exactly when no command is pending (R34). -/
theorem busy_eq_false_iff (s : State) : s.busy = false ↔ s.pending = none := by
  simp [State.busy]

theorem busy_of_some {s : State} {p : Pending} (h : s.pending = some p) : s.busy = true := by
  simp [State.busy, h]

theorem busy_of_none {s : State} (h : s.pending = none) : s.busy = false := by
  simp [State.busy, h]

end Sys2Proof.Machine
end

