-- ==== Sys2Proof/Laws/Ops.lean ====
section
/-! SUPPORT. One lemma per shared operation: everything it can do. -/

namespace Sys2Proof.Machine

/-! ## Checks and errors -/

@[simp] theorem checked_some (e : ErrCode) (s t : State) : checked (some e) s t = .next (raiseError e s) := rfl

@[simp] theorem checked_none (s t : State) : checked none s t = .next t := rfl

/-- ABSB and ABSY are refused exactly outside READY and ABSORBING, with ERR_SEQ (R245). -/
theorem absorbError_eq (s : State) :
    absorbError s = if s.phase = .ready ∨ s.phase = .absorbing then none else some .seq := by
  unfold absorbError
  cases s.phase <;> rfl

/-- FINAL is refused exactly outside READY and ABSORBED, with ERR_SEQ (R245). -/
theorem finalError_eq (s : State) :
    finalError s = if s.phase = .ready ∨ s.phase = .absorbed then none else some .seq := by
  unfold finalError
  cases s.phase <;> rfl

/-- The policy's round count in one form (R144). -/
theorem absorbRounds_eq (p : Phase) (last : Bool) :
    absorbRounds p last = if p = .ready ∨ last = true then 324 else 162 := by
  cases p <;> cases last <;> rfl

/-- A command's effect when its checks pass. -/
def effectOf (i : Instr) (s : State) : State :=
  match i with
  | .nop => s
  | .init => { s with S := SEED, bitcnt := 0, phase := .ready, dv := false }
  | .adv rounds => { s with S := advance s.S rounds }
  | .xorin bit => { s with S := inject bit s.S }
  | .sqz1 =>
    { s with
      S := (squeezeStep (s.S, s.D)).1, D := (squeezeStep (s.S, s.D)).2, dv := false, hv := false }
  | .absb bit last => { absorbBit bit last s with bitcnt := s.bitcnt + 1 }
  | .absy byte last => { absorbBits (byteBits byte) last s with bitcnt := s.bitcnt + 8 }
  | .final =>
    { s with
      S := (squeezeSteps squeezeCount (finalStart s, s.D)).1,
      D := (squeezeSteps squeezeCount (finalStart s, s.D)).2,
      phase := .squeezed, dv := true, hv := false }
  | .tohex nbits =>
    { s with
      hexout := hexoutImage (toHex (digestPrefix s.D nbits)),
      hexoutLen := BitVec.ofNat 7 (toHex (digestPrefix s.D nbits)).length, hv := true }
  | .hexin => { s with D := ofMsbBits 160 (hexToBits160 (hexinText s)), dv := false, hv := false }
  | .clrerr => clearError s

/-- Every command is its checks and then its effect. -/
theorem exec_eq_checked (i : Instr) (s : State) : exec i s = checked (acceptError i s) s (effectOf i s) := by
  cases i <;> rfl

/-- What a command can do: raise the error of its first failing check, or have its whole effect. -/
theorem exec_cases {i : Instr} {s t : State} (h : exec i s = .next t) :
    (∃ e, acceptError i s = some e ∧ t = raiseError e s) ∨ (acceptError i s = none ∧ t = effectOf i s) := by
  rw [exec_eq_checked] at h
  cases ha : acceptError i s with
  | none =>
    rw [ha, checked_none, Host.Outcome.next.injEq] at h
    exact .inr ⟨rfl, h.symm⟩
  | some e =>
    rw [ha, checked_some, Host.Outcome.next.injEq] at h
    exact .inl ⟨e, rfl, h.symm⟩

/-! ## The sponge's loops -/

/-- Absorbing bits changes S and PHASE only. -/
theorem absorbBits_eq (bits : List Bool) (last : Bool) (s : State) :
    ∃ S' phase', absorbBits bits last s = { s with S := S', phase := phase' } := by
  induction bits generalizing s with
  | nil => exact ⟨s.S, s.phase, rfl⟩
  | cons b rest ih =>
    cases rest with
    | nil => exact ⟨_, _, rfl⟩
    | cons c rest =>
      obtain ⟨S', phase', h⟩ := ih (absorbBit b false s)
      exact ⟨S', phase', h⟩

/-- Every message bit moves PHASE to ABSORBED or ABSORBING, as the last bit's flag says (R145). -/
theorem absorbBits_phase (b : Bool) (rest : List Bool) (last : Bool) (s : State) :
    (absorbBits (b :: rest) last s).phase = phaseAfterBit last := by
  induction rest generalizing b s with
  | nil => rfl
  | cons c rest ih => exact ih c (absorbBit b false s)

@[simp] theorem advance_zero (S : SReg) : advance S 0 = S := rfl

theorem advance_succ (S : SReg) (r : Nat) : advance S (r + 1) = nlfsrRound (advance S r) := rfl

/-- `n` squeeze steps advance S by `n` rounds, whatever D holds. -/
theorem squeezeSteps_fst (n : Nat) (S : SReg) (D : DReg) : (squeezeSteps n (S, D)).1 = advance S n := by
  induction n with
  | zero => rfl
  | succ n ih => exact congrArg nlfsrRound ih

/-! ## Packing (R53 to R55) -/

/-- Bit `j` of word `w`, counted from the most significant, is bit 32w+j of the image (R53). -/
theorem getMsbD_packedWord (n : Nat) (image : BitVec (32 * n)) (w j : Nat) (hw : w < n) (hj : j < 32) :
    (packedWord n image w).getMsbD j = image.getMsbD (32 * w + j) := by
  have h1 : 32 * w + j < 32 * n := by omega
  have h2 : 32 * (n - 1 - w) + (31 - j) = 32 * n - 1 - (32 * w + j) := by omega
  have h3 : 31 - j < 32 := by omega
  simp [packedWord, BitVec.getMsbD, hj, h1, h2, h3]

theorem getElem_wordMask (k : Nat) (h : k < 32) : (4294967295#32)[k] = true := by
  simpa using BitVec.getElem_allOnes (v := 32) k h

/-- Replacing word `w` puts the word's bits at 32w to 32w+31 and leaves every other bit (R53). -/
theorem getMsbD_replaceWord (n : Nat) (image : BitVec (32 * n)) (w : Nat) (v : Word) (i : Nat) (hw : w < n)
    (hi : i < 32 * n) :
    (replaceWord n image w v).getMsbD i =
      if 32 * w ≤ i ∧ i < 32 * w + 32 then v.getMsbD (i - 32 * w) else image.getMsbD i := by
  by_cases hin : 32 * w ≤ i ∧ i < 32 * w + 32
  · have h1 : ¬ 32 * n - 1 - i < 32 * (n - 1 - w) := by omega
    have h2 : 32 * n - 1 - i - 32 * (n - 1 - w) = 31 - (i - 32 * w) := by omega
    have h3 : 32 * n - 1 - i < 32 * n := by omega
    have h4 : 31 - (i - 32 * w) < 32 := by omega
    have h5 : i - 32 * w < 32 := by omega
    simp [replaceWord, BitVec.getMsbD, hi, hin, h1, h2, h3, h4, h5, getElem_wordMask]
  · rw [if_neg hin]
    have h3 : 32 * n - 1 - i < 32 * n := by omega
    by_cases hlow : 32 * n - 1 - i < 32 * (n - 1 - w)
    · simp [replaceWord, BitVec.getMsbD, hi, hlow, h3]
    · have h5 : 32 ≤ 32 * n - 1 - i - 32 * (n - 1 - w) := by omega
      simp [replaceWord, BitVec.getMsbD, hi, hlow, h3, h5]

/-- The lanes of four bytes written side by side, highest lane first. -/
theorem lane_append (c3 c2 c1 c0 : Byte) :
    lane (c3 ++ c2 ++ c1 ++ c0) 0 = c0 ∧ lane (c3 ++ c2 ++ c1 ++ c0) 1 = c1 ∧
    lane (c3 ++ c2 ++ c1 ++ c0) 2 = c2 ∧ lane (c3 ++ c2 ++ c1 ++ c0) 3 = c3 := by
  have h (i : Nat) := BitVec.getLsbD_append (x := c3 ++ c2 ++ c1) (y := c0) (i := i)
  have h' (i : Nat) := BitVec.getLsbD_append (x := c3 ++ c2) (y := c1) (i := i)
  have h'' (i : Nat) := BitVec.getLsbD_append (x := c3) (y := c2) (i := i)
  refine ⟨?_, ?_, ?_, ?_⟩ <;>
    (apply BitVec.eq_of_getLsbD_eq; intro k hk; unfold lane
     simp only [BitVec.getLsbD_extractLsb', hk, decide_true, Bool.true_and])
  · exact (h _).trans (by simp [hk])
  · exact (h _).trans (by rw [h']; simp [hk])
  · exact (h _).trans (by
      rw [h', h'', if_neg (by omega), if_neg (by omega), if_pos (by omega)]; congr 1; omega)
  · exact (h _).trans (by
      rw [h', h'', if_neg (by omega), if_neg (by omega), if_neg (by omega)]; congr 1; omega)

/-- Lane `b` of word `w` of a character buffer is character 4w+b (R55). -/
theorem lane_readCharWord {n : Nat} (buf : Vector Byte n) (w b : Nat) (hb : b < 4) (h : 4 * w + b < n) :
    lane (readCharWord buf w) b = buf[4 * w + b] := by
  have hc := lane_append (buf[4 * w + 3]?.getD 0) (buf[4 * w + 2]?.getD 0) (buf[4 * w + 1]?.getD 0)
    (buf[4 * w + 0]?.getD 0)
  obtain rfl | rfl | rfl | rfl : b = 0 ∨ b = 1 ∨ b = 2 ∨ b = 3 := by omega
  · exact hc.1.trans (by simp [show 4 * w < n from h])
  · exact hc.2.1.trans (by simp [h])
  · exact hc.2.2.1.trans (by simp [h])
  · exact hc.2.2.2.trans (by simp [h])

/-- Writing word `w` of a character buffer sets characters 4w to 4w+3 to the lanes and leaves every other (R55). -/
theorem getElem_writeCharWord {n : Nat} (buf : Vector Byte n) (w : Nat) (v : Word) (c : Nat) (h : c < n) :
    (writeCharWord buf w v)[c] =
      if 4 * w ≤ c ∧ c < 4 * w + 4 then lane v (c - 4 * w) else buf[c] := by
  simp only [writeCharWord, Vector.getElem_setIfInBounds]
  by_cases h0 : c = 4 * w
  · subst h0; simp
  by_cases h1 : c = 4 * w + 1
  · subst h1; simp
  by_cases h2 : c = 4 * w + 2
  · subst h2; simp
  by_cases h3 : c = 4 * w + 3
  · subst h3; simp
  have : ¬ (4 * w ≤ c ∧ c < 4 * w + 4) := by omega
  simp [this, Ne.symm h0, Ne.symm h1, Ne.symm h2, Ne.symm h3]

end Sys2Proof.Machine
end

