-- ==== Sys2Proof/Laws/PerInstr.lean ====
section
/-! SUPPORT. A statement about every command as syntax, one lemma per command: the word it encodes to selects its own
row of the opcode map (R87), so every must-be-zero bit of its format is 0. -/

namespace Sys2Proof.Laws.EncodeSelectsRow

/-- The encoded word passes the row's `(w AND mask) = match` test. -/
def Statement (i : Instr) : Prop := encode i &&& i.opcode.format.mask = i.opcode.matchWord

theorem nop : Statement .nop := by unfold Statement; decide

theorem init : Statement .init := by unfold Statement; decide

theorem sqz1 : Statement .sqz1 := by unfold Statement; decide

theorem final : Statement .final := by unfold Statement; decide

theorem hexin : Statement .hexin := by unfold Statement; decide

theorem clrerr : Statement .clrerr := by unfold Statement; decide

theorem xorin (bit : Bool) : Statement (.xorin bit) := by unfold Statement; revert bit; decide

theorem absb (bit last : Bool) : Statement (.absb bit last) := by unfold Statement; revert bit last; decide

/-- A word built from OPC and operands, masked by OPC's bits and an operand mask. -/
theorem append_and_mask (opc : BitVec 8) (f m : BitVec 24) (h : f &&& m = 0#24) :
    (opc ++ f : Word) &&& (BitVec.allOnes 8 ++ m) = opc ++ 0#24 := by
  have h' : (opc ++ f : Word) &&& (BitVec.allOnes 8 ++ m) = (opc &&& BitVec.allOnes 8) ++ (f &&& m) :=
    BitVec.and_append
  rw [h', h, BitVec.and_allOnes]

theorem adv (rounds : Nat) : Statement (.adv rounds) :=
  append_and_mask 0x02 (BitVec.ofNat 24 rounds) 0#24 BitVec.and_zero

theorem absy (byte : Byte) (last : Bool) : Statement (.absy byte last) := by
  have h : (0#15 ++ BitVec.ofBool last ++ byte : BitVec 24) &&& (0x7FFF#15 ++ 0#1 ++ 0#8) = 0#24 := by
    have h' : (0#15 ++ BitVec.ofBool last ++ byte : BitVec 24) &&& (0x7FFF#15 ++ 0#1 ++ 0#8) =
        ((0#15 ++ BitVec.ofBool last) &&& (0x7FFF#15 ++ 0#1)) ++ (byte &&& 0#8) := BitVec.and_append
    have hl : (0#15 ++ BitVec.ofBool last) &&& (0x7FFF#15 ++ 0#1) = 0#16 := by cases last <;> decide
    rw [h', hl, BitVec.and_zero]
    decide
  exact append_and_mask 0x11 _ _ h

theorem tohex (nbits : Nat) : Statement (.tohex nbits) := by
  have h : (0#16 ++ BitVec.ofNat 8 nbits : BitVec 24) &&& (0xFFFF#16 ++ 0#8) = 0#24 := by
    have h' : (0#16 ++ BitVec.ofNat 8 nbits : BitVec 24) &&& (0xFFFF#16 ++ 0#8) =
        (0#16 &&& 0xFFFF#16) ++ (BitVec.ofNat 8 nbits &&& 0#8) := BitVec.and_append
    rw [h', BitVec.and_zero]
    decide
  exact append_and_mask 0x20 _ _ h

end Sys2Proof.Laws.EncodeSelectsRow
end

