-- ==== Sys2Proof/Laws/Step.lean ====
section
/-! SUPPORT. What a step, a host turn, a command write and a register write can do. -/

namespace Sys2Proof.Machine

/-- What a CMD write can do (R283): refuse with an error, or make the word pending. -/
theorem presentCommand_cases (w : Word) (s : State) :
    (s.busy = true ∧ presentCommand w s = raiseError .busy s) ∨
    (s.busy = false ∧ (∃ e, decode w = .error e) ∧ presentCommand w s = raiseError .badop s) ∨
    (s.busy = false ∧ (∃ i e, decode w = .ok i ∧ acceptError i s = some e ∧
      presentCommand w s = raiseError e s)) ∨
    (s.busy = false ∧ (∃ i, decode w = .ok i ∧ acceptError i s = none ∧
      presentCommand w s =
        { s with pending := some ⟨w, Config.latency s.draws⟩, draws := s.draws + 1 })) := by
  unfold presentCommand
  cases hb : s.busy with
  | true => exact .inl ⟨rfl, by simp⟩
  | false =>
    cases hd : decode w with
    | error e => exact .inr (.inl ⟨rfl, ⟨e, rfl⟩, by simp⟩)
    | ok i =>
      cases ha : acceptError i s with
      | some e => exact .inr (.inr (.inl ⟨rfl, i, e, rfl, ha, by simp [ha]⟩))
      | none => exact .inr (.inr (.inr ⟨rfl, i, rfl, ha, by simp [ha]⟩))

/-- A write refused while busy raises ERR_BUSY and stores nothing (R59). -/
theorem unlessBusy_cases (s t : State) :
    (s.busy = true ∧ unlessBusy s t = raiseError .busy s) ∨ (s.busy = false ∧ unlessBusy s t = t) := by
  unfold unlessBusy
  cases s.busy <;> simp

/-- What a host write can do to a register (R51, R57, R59). -/
theorem writeReg_cases (r : WindowReg) (v : Word) (s : State) :
    (r = .cmd ∧ writeReg r v s = presentCommand v s) ∨
    (writeReg r v s = raiseError .busy s ∧ s.busy = true) ∨
    (s.busy = false ∧ (r = .hexinLen ∧ writeReg r v s = { s with hexinLen := v } ∨
      (∃ w, r = .state w ∧ writeReg r v s = { s with S := writeStateWord s.S w v }) ∨
      (∃ w, r = .hexin w ∧ writeReg r v s = { s with hexin := writeCharWord s.hexin w v }))) ∨
    writeReg r v s = s := by
  cases r with
  | cmd => exact .inl ⟨rfl, rfl⟩
  | hexinLen =>
    rcases unlessBusy_cases s { s with hexinLen := v } with ⟨hb, h⟩ | ⟨hb, h⟩
    · exact .inr (.inl ⟨h, hb⟩)
    · exact .inr (.inr (.inl ⟨hb, .inl ⟨rfl, h⟩⟩))
  | state w =>
    rcases unlessBusy_cases s { s with S := writeStateWord s.S w v } with ⟨hb, h⟩ | ⟨hb, h⟩
    · exact .inr (.inl ⟨h, hb⟩)
    · exact .inr (.inr (.inl ⟨hb, .inr (.inl ⟨w, rfl, h⟩)⟩))
  | hexin w =>
    rcases unlessBusy_cases s { s with hexin := writeCharWord s.hexin w v } with ⟨hb, h⟩ | ⟨hb, h⟩
    · exact .inr (.inl ⟨h, hb⟩)
    · exact .inr (.inr (.inl ⟨hb, .inr (.inr ⟨w, rfl, h⟩)⟩))
  | status | bitcntLo | bitcntHi | hexoutLen | digest _ | hexout _ => exact .inr (.inr (.inr rfl))

/-- The bus's decision on a byte address of the window is the block's on its offset (R50). -/
theorem busDecode_base {off width : Nat} (h : off < windowBytes) :
    busDecode (Config.base + off) width = windowDecode off width := by
  have : ¬ (Config.base + off < Config.base ∨ Config.base + windowBytes ≤ Config.base + off) := by omega
  rw [busDecode, if_neg this, Nat.add_sub_cancel_left]

/-- A byte address outside the window is no access of this block (R50). -/
theorem busDecode_outside {addr width : Nat} (h : addr < Config.base ∨ Config.base + windowBytes ≤ addr) :
    busDecode addr width = .error .outsideWindow := if_pos h

/-- The offsets that name a register are the mapped ones (R51). -/
theorem windowReg?_isSome_iff (off : Nat) (h : off % 4 = 0) : (windowReg? off).isSome = true ↔ MappedOffset off := by
  unfold windowReg?
  repeat' split
  all_goals simp only [Option.isSome_some, Option.isSome_none, MappedOffset, true_iff, Bool.false_eq_true, false_iff]
  all_goals omega

/-- The accesses the block answers are the 4-byte ones at mapped offsets (R51, R52). -/
theorem windowDecode_ok_iff (off width : Nat) :
    (∃ r, windowDecode off width = .ok r) ↔ width = 4 ∧ MappedOffset off := by
  unfold windowDecode
  split
  · simp_all
  · split
    · have : ¬ MappedOffset off := fun hm => absurd hm.1 ‹_›
      simp_all
    · have hm := windowReg?_isSome_iff off (by omega)
      cases hr : windowReg? off with
      | none => simpa [hr] using fun _ => hm.not.1 (by simp [hr])
      | some r => exact ⟨fun _ => ⟨by omega, hm.1 (by simp [hr])⟩, fun _ => ⟨r, rfl⟩⟩

/-- An access inside the window is never called one outside it. -/
theorem windowDecode_ne_outsideWindow (off width : Nat) : windowDecode off width ≠ .error .outsideWindow := by
  unfold windowDecode
  repeat' split
  all_goals simp

/-- What a host turn that answers a next state has done. -/
theorem hostTurn_cases {s t : State} (h : hostTurn s = .next t) :
    (s.hostOps = [] ∧ t = s) ∨
    (∃ addr width v rest r, s.hostOps = .write addr width v :: rest ∧ busDecode addr width = .ok r ∧
      t = writeReg r v { s with hostOps := rest }) ∨
    (∃ addr width rest r, s.hostOps = .read addr width :: rest ∧ busDecode addr width = .ok r ∧
      t = readReg addr r { s with hostOps := rest }) ∨
    (∃ rest, s.hostOps = .wait :: rest ∧
      ((s.busy = true ∧ t = readReg (Config.base + 0x004) .status s) ∨
        (s.busy = false ∧ t = readReg (Config.base + 0x004) .status { s with hostOps := rest }))) ∨
    (∃ rest, s.hostOps = .reset :: rest ∧ t = platformReset { s with hostOps := rest }) := by
  unfold hostTurn at h
  cases hops : s.hostOps with
  | nil =>
    rw [hops] at h
    exact .inl ⟨rfl, (Host.Outcome.next.inj h).symm⟩
  | cons op rest =>
    rw [hops] at h
    cases op with
    | write addr width v =>
      cases hb : busDecode addr width with
      | error f => simp [hb] at h
      | ok r =>
        simp only [hb] at h
        exact .inr (.inl ⟨addr, width, v, rest, r, rfl, hb, (Host.Outcome.next.inj h).symm⟩)
    | read addr width =>
      cases hb : busDecode addr width with
      | error f => simp [hb] at h
      | ok r =>
        simp only [hb] at h
        exact .inr (.inr (.inl ⟨addr, width, rest, r, rfl, hb, (Host.Outcome.next.inj h).symm⟩))
    | wait =>
      have ht := (Host.Outcome.next.inj h).symm
      cases hb : s.busy with
      | true => exact .inr (.inr (.inr (.inl ⟨rest, rfl, .inl ⟨rfl, by simpa [hb] using ht⟩⟩)))
      | false => exact .inr (.inr (.inr (.inl ⟨rest, rfl, .inr ⟨rfl, by simpa [hb] using ht⟩⟩)))
    | reset => exact .inr (.inr (.inr (.inr ⟨rest, rfl, (Host.Outcome.next.inj h).symm⟩)))

/-- Whose turn a step is: the host's with nothing pending or with delay left, the engine's when it has run out. -/
theorem step_cases (s : State) :
    (s.pending = none ∧ step s = hostTurn s) ∨
    (∃ w, s.pending = some ⟨w, 0⟩ ∧ step s = engineComplete w { s with pending := none }) ∨
    (∃ w d, s.pending = some ⟨w, d + 1⟩ ∧ step s = hostTurn { s with pending := some ⟨w, d⟩ }) := by
  unfold step
  match hp : s.pending with
  | none => exact .inl ⟨rfl, rfl⟩
  | some ⟨w, 0⟩ => exact .inr (.inl ⟨w, rfl, rfl⟩)
  | some ⟨w, d + 1⟩ => exact .inr (.inr ⟨w, d, rfl, rfl⟩)

@[simp] theorem runSteps_zero (s : State) : runSteps 0 s = .next s := rfl

/-- A run goes on from the state a step answers. -/
theorem runSteps_of_next {n : Nat} {s t : State} (h : step s = .next t) : runSteps (n + 1) s = runSteps n t := by
  simp [runSteps, h]

/-- A run stops at a bus error. -/
theorem runSteps_of_fault {n : Nat} {s : State} {f : Fault} (h : step s = .fault f) :
    runSteps (n + 1) s = .fault f := by
  simp [runSteps, h]

/-- WAIT while BUSY = 1: a STATUS read, and WAIT stays (R92). -/
theorem step_wait_busy {s : State} {w : Word} {d : Nat} {rest : List HostOp} (hp : s.pending = some ⟨w, d + 1⟩)
    (ho : s.hostOps = .wait :: rest) :
    ∃ replies draws, step s = .next { s with pending := some ⟨w, d⟩, replies := replies, draws := draws } := by
  refine ⟨(Config.base + 0x004, readBusy .status { s with pending := some ⟨w, d⟩ } (Config.freeWord s.draws)) :: s.replies,
    s.draws + 1, ?_⟩
  simp [step, hp, hostTurn, ho, State.busy, readReg]

/-- WAIT while BUSY = 0: a STATUS read, and WAIT is done (R92). -/
theorem step_wait_quiet {s : State} {rest : List HostOp} (hp : s.pending = none) (ho : s.hostOps = .wait :: rest) :
    step s = .next { s with hostOps := rest, replies := (Config.base + 0x004, statusIdle s) :: s.replies } := by
  simp [step, hp, hostTurn, ho, State.busy, readReg, readIdle, statusIdle]

/-- STATUS read while BUSY = 0 has bit 0 clear (R29). -/
theorem getLsbD_zero_statusIdle (s : State) : (statusIdle s).getLsbD 0 = false := by
  rw [statusIdle, statusLayout, BitVec.getLsbD_append]
  rfl

/-- A WAIT that finds the block idle is a poll that returns BUSY = 0 (R289). -/
theorem pollsIdle_wait {s : State} {rest : List HostOp} (hp : s.pending = none) (ho : s.hostOps = .wait :: rest) :
    PollsIdle s { s with hostOps := rest, replies := (Config.base + 0x004, statusIdle s) :: s.replies } :=
  ⟨step_wait_quiet hp ho, _, rfl, getLsbD_zero_statusIdle s⟩

/-- A write to CMD on the host's turn. -/
theorem step_write_cmd {s : State} {w : Word} {rest : List HostOp} (hp : s.pending = none)
    (ho : s.hostOps = .write (Config.base + 0x000) 4 w :: rest) :
    step s = .next (presentCommand w { s with hostOps := rest }) := by
  simp only [step, hp, hostTurn, ho, busDecode_base (show 0x000 < windowBytes by decide)]
  rfl

/-- The engine's turn always answers a next state. -/
theorem engineComplete_answers (w : Word) (s : State) :
    engineComplete w s = .next (raiseError .badop s) ∨ ∃ i, decode w = .ok i ∧ engineComplete w s = exec i s := by
  unfold engineComplete
  cases hd : decode w with
  | error e => exact .inl rfl
  | ok i => exact .inr ⟨i, rfl, rfl⟩

end Sys2Proof.Machine
end

