-- ==== Sys2Proof/Tests/Slice0.lean ====
section
/-! SUPPORT. Tests with expected values from the spec (95_test_vectors, the rules' examples), the WellFormed smoke test,
and a witness for the hypotheses of each statement. -/

namespace Sys2Proof.Tests

open Sys2Proof.Machine

/-! ## Helpers -/

/-- The state after the next step has run the command word `w` from `s`. -/
def ran (s : State) (w : Nat) : Option State :=
  match step (s.withFetchWord 32 w) with
  | .next t => some t
  | .fault _ => none
  | .refused _ => none

/-- The state after one host turn of the access `op` from `s`. -/
def did (s : State) (op : HostOp) : Option State :=
  match step { s with hostOps := [op] } with
  | .next t => some t
  | .fault _ => none
  | .refused _ => none

/-- An idle block's host turn on a write at an offset of the window, with BASE out of the way. -/
theorem did_write {s : State} {off width : Nat} {v : Word} (hp : s.pending = none) (h : off < windowBytes) :
    did s (.write (Config.base + off) width v) =
      (windowDecode off width).toOption.map fun r => writeReg r v { s with hostOps := [] } := by
  simp only [did, step, hp, hostTurn, busDecode_base h]
  cases windowDecode off width <;> rfl

/-- The same of a read. -/
theorem did_read {s : State} {off width : Nat} (hp : s.pending = none) (h : off < windowBytes) :
    did s (.read (Config.base + off) width) =
      (windowDecode off width).toOption.map fun r => readReg (Config.base + off) r { s with hostOps := [] } := by
  simp only [did, step, hp, hostTurn, busDecode_base h]
  cases windowDecode off width <;> rfl

/-- A busy block's host turn on a write. -/
theorem did_write_busy {s : State} {w v : Word} {d off width : Nat} (hp : s.pending = some ⟨w, d + 1⟩)
    (h : off < windowBytes) :
    did s (.write (Config.base + off) width v) =
      (windowDecode off width).toOption.map fun r => writeReg r v { s with pending := some ⟨w, d⟩, hostOps := [] } := by
  simp only [did, step, hp, hostTurn, busDecode_base h]
  cases windowDecode off width <;> rfl

/-- After INIT from reset. -/
def afterInit : State := { State.reset with S := SEED, phase := .ready }

/-- A state whose D is the digest of the empty message, E. -/
def withE : State := { State.reset with D := 0xE50A9A3F562B83F9E1708292B618682ED44345DF#160 }

/-- A state whose HEXIN holds `text`. -/
def withText (text : List Byte) : State :=
  { State.reset with
    hexin := ⟨((List.range 64).map fun c => text[c]?.getD 0).toArray, by simp⟩
    hexinLen := BitVec.ofNat 32 text.length }

/-- A state with NOP pending and the host's turn first. -/
def busyState (ops : List HostOp) : State := { State.reset with pending := some ⟨0x00000000, 1⟩, hostOps := ops }

def stateWords (t : State) : List Word := (List.range 6).map (readStateWord t.S)

def hexoutText (t : State) : List Byte := t.hexout.toList.take t.hexoutLen.toNat

def ascii (text : String) : List Byte := text.toList.map fun c => BitVec.ofNat 8 c.toNat

/-! ## WellFormed: an ill-formed term for each check (R82, R86) -/

theorem test_wellFormed_refuses_wide_rounds : ¬ (Instr.adv 16777216).WellFormed := by decide

theorem test_wellFormed_refuses_wide_nbits : ¬ (Instr.tohex 256).WellFormed := by decide

theorem test_wellFormed_accepts_bounds : (Instr.adv 16777215).WellFormed ∧ (Instr.tohex 255).WellFormed := by decide

/-! ## Decoding: every row's word, written out from R81 to R87 -/

theorem test_decode_formatN :
    decode 0x00000000 = .ok .nop ∧ decode 0x01000000 = .ok .init ∧ decode 0x04000000 = .ok .sqz1 ∧
    decode 0x12000000 = .ok .final ∧ decode 0x21000000 = .ok .hexin ∧ decode 0x30000000 = .ok .clrerr := by decide

/-- R93's worked encodings, bit by bit. -/
theorem test_decode_operands :
    decode (0b00000010#8 ++ 0b000000000000000101000100#24) = .ok (.adv 324) ∧
    decode (0b00000011#8 ++ 0#23 ++ 1#1) = .ok (.xorin true) ∧
    decode (0b00010000#8 ++ 0#22 ++ 1#1 ++ 0#1) = .ok (.absb false true) ∧
    decode (0b00010000#8 ++ 0#22 ++ 0#1 ++ 1#1) = .ok (.absb true false) ∧
    decode (0b00010001#8 ++ 0#15 ++ 1#1 ++ 0b01100011#8) = .ok (.absy 0x63 true) ∧
    decode (0b00100000#8 ++ 0#16 ++ 0b10100000#8) = .ok (.tohex 160) := by decide

theorem test_decode_rejects :
    decode 0x10000004 = .error .malformed ∧ decode 0x05000000 = .error .reservedOpcode ∧
    decode 0x00000001 = .error .malformed ∧ decode 0xFF000000 = .error .reservedOpcode := by decide

/-- R92's column of words. -/
theorem test_encode_words :
    encode (.adv 324) = 0x02000144 ∧ encode (.absy 0x63 true) = 0x11000163 ∧ encode (.absb true true) = 0x10000003 ∧
    encode (.tohex 160) = 0x200000A0 ∧ encode (.xorin true) = 0x03000001 ∧ encode .final = 0x12000000 := by decide

/-- No two rows of the map share an OPC (R87). -/
theorem test_rows_do_not_overlap : (Opcode.all.map Opcode.opc).Nodup := by decide

theorem test_decodeTableWord :
    decodeTableWord 32 0x02000144 = some (.adv 324) ∧ decodeTableWord 32 0x05000000 = none := by decide

/-! ## One step per command -/

/-- R220's example. -/
theorem test_nop_from_reset : ran State.reset 0x00000000 = some State.reset := by decide +kernel

/-- R107's example: STATE words and STATUS. -/
theorem test_init_from_reset : (ran State.reset 0x01000000).map (fun t => (stateWords t, statusIdle t)) =
    some ([0x243F6A88, 0x85A308D3, 0x13198A2E, 0x03707344, 0xA4093822, 0x00000000], 0x10) := by decide +kernel

/-- 95_test_vectors: INIT, FINAL, INIT keeps D and clears DV. -/
theorem test_init_keeps_digest : (ran { withE with dv := true, phase := .squeezed } 0x01000000).map
    (fun t => (t.D, statusIdle t)) = some (withE.D, 0x10) := by decide +kernel

/-- R108's example, and ADV 324 of L2.2. -/
theorem test_adv_from_seed : (ran afterInit 0x02000001).map stateWords =
    some [0x487ED511, 0x0B4611A6, 0x2633145C, 0x06E0E689, 0x48127044, 0x00000000] := by decide +kernel

theorem test_adv_324_from_seed : (ran afterInit 0x02000144).map stateWords =
    some [0x1935915E, 0xF713D17E, 0x74E3D3FA, 0x5CF0F973, 0x4B063C28, 0x00000000] := by decide +kernel

/-- R109's example. -/
theorem test_xorin_from_seed : (ran afterInit 0x03000001).map stateWords =
    some [0x243F6A88, 0x85A308D3, 0x13198A2E, 0x03707344, 0xA4093822, 0x80000000] := by decide +kernel

/-- 95_test_vectors, corner cases: SQZ1 after INIT, FINAL, TOHEX 160. -/
theorem test_sqz1_after_final : (ran { withE with
      S := 0xC5A2D10A8708B5D79A0D41495B0C34176A21A2EF#160 ++ 1#1
      dv := true
      hv := true
      phase := .squeezed } 0x04000000).map (fun t => (t.D, stateWords t, statusIdle t)) =
    some (0xCA15347EAC5707F3C2E105256C30D05DA8868BBF#160,
      [0x8B45A215, 0x0E116BAF, 0x341A8292, 0xB618682E, 0xD44345DF, 0x80000000], 0x40) := by decide +kernel

/-- R144's example. -/
theorem test_absb_last_from_seed : (ran afterInit 0x10000003).map (fun t => (stateWords t, statusIdle t, t.bitcnt)) =
    some ([0x04E14958, 0x6BE9ABEB, 0x6AACA040, 0x0B227294, 0xCE07825F, 0x00000000], 0x30, 1) := by decide +kernel

theorem test_absb_idle_is_seq : (ran State.reset 0x10000001).map statusIdle = some 0x300 := by decide +kernel

/-- 95_test_vectors, L2.3: the first byte of "abc". -/
theorem test_absy_first_byte : (ran afterInit 0x11000061).map (fun t => (stateWords t, statusIdle t, t.bitcnt)) =
    some ([0xB9294EE6, 0x1CF76B55, 0xF5C08822, 0xCE0A43CA, 0x886A5CDF, 0x00000000], 0x20, 8) := by decide +kernel

theorem test_absy_idle_is_seq : (ran State.reset 0x11000061).map statusIdle = some 0x300 := by decide +kernel

/-- R146's example: INIT, FINAL. -/
theorem test_final_empty_message : (ran afterInit 0x12000000).map (fun t => (t.D, stateWords t, statusIdle t)) =
    some (withE.D, [0xC5A2D10A, 0x8708B5D7, 0x9A0D4149, 0x5B0C3417, 0x6A21A2EF, 0x80000000], 0x42) := by
  decide +kernel

/-- R285: FINAL after a forgotten LAST. -/
theorem test_final_absorbing_is_seq :
    (ran { State.reset with phase := .absorbing } 0x12000000).map statusIdle = some 0x320 := by decide +kernel

/-- L2.4: the left padding of TOHEX 159. -/
theorem test_tohex_159 : (ran withE 0x2000009F).map (fun t => (hexoutText t, t.hexoutLen, readCharWord t.hexout 0)) =
    some (ascii "72854d1fab15c1fcf0b841495b0c34176a21a2ef", 40, 0x35383237) := by decide +kernel

/-- L2.4: TOHEX 5 gives "1c" and zeros past it; TOHEX 161 is refused. -/
theorem test_tohex_5 : (ran withE 0x20000005).map (fun t => (readCharWord t.hexout 0, t.hexoutLen)) =
    some (0x00006331, 2) ∧ (ran withE 0x200000A1).map statusIdle = some 0x400 := by decide +kernel

/-- R183's example. -/
theorem test_hexin_prefixed : (ran (withText (ascii "0xABC")) 0x21000000).map State.D = some 0xABC := by decide +kernel

/-- L2.4: only one prefix is stripped. -/
theorem test_hexin_second_prefix : (ran (withText (ascii "0x0x12")) 0x21000000).map statusIdle = some 0x500 := by
  decide +kernel

/-- R221's example. -/
theorem test_clrerr : (ran { State.reset with err := .seq } 0x30000000).map statusIdle = some 0 := by decide +kernel

/-- The generator of R100 gives the value of R102. -/
theorem test_seed : generatedSeed piDigits = SEED := by decide +kernel

/-! ## One host turn -/

/-- L2.2: STATE5's low bits are ignored (R54). -/
theorem test_write_state5 : (did State.reset (.write (Config.base + 0x034) 4 0xFFFFFFFF)).map stateWords =
    some [0, 0, 0, 0, 0, 0x80000000] := by
  rw [did_write rfl (by decide)]
  decide +kernel

/-- R55's packing of "0xABC" (L2.4). -/
theorem test_write_hexin :
    (did State.reset (.write (Config.base + 0x0A0) 4 0x42417830)).map (fun t => t.hexin.toList.take 5) =
      some (ascii "0xAB" ++ [0]) := by
  rw [did_write rfl (by decide)]
  decide +kernel

/-- R53: DIGEST1 of E. -/
theorem test_read_digest :
    (did withE (.read (Config.base + 0x044) 4)).map (fun t => t.replies.map Prod.snd) = some [0x562B83F9] := by
  rw [did_read rfl (by decide)]
  decide +kernel

/-- R51: 0x018 is unmapped; R52: two bytes wide, and misaligned. -/
theorem test_bus_errors : did State.reset (.read (Config.base + 0x018) 4) = none ∧
    did State.reset (.write (Config.base + 0x000) 2 0) = none ∧
    did State.reset (.read (Config.base + 0x002) 4) = none := by
  rw [did_read rfl (by decide), did_write rfl (by decide), did_read rfl (by decide)]
  exact ⟨rfl, rfl, rfl⟩

/-- R59: a CMD write while busy. -/
theorem test_busy_write :
    (did (busyState []) (.write (Config.base + 0x000) 4 0x12000000)).map (fun t => (t.err, t.busy)) =
      some (.busy, true) := by
  rw [did_write_busy rfl (by decide)]
  decide +kernel

/-- L2.5: BADOP is checked before SEQ. -/
theorem test_badop_before_seq :
    (did State.reset (.write (Config.base + 0x000) 4 0x10000004)).map statusIdle = some 0x200 := by
  rw [did_write rfl (by decide)]
  decide +kernel

/-! ## Witnesses: the hypotheses of each statement hold together somewhere -/

theorem witness_DecodeEncodeRoundTrip :
    (Instr.adv 0).WellFormed ∧ (Instr.adv 16777215).WellFormed ∧ (Instr.tohex 255).WellFormed := by decide

theorem witness_EncodeDecodeRoundTrip : decode 0x02FFFFFF = .ok (.adv 16777215) := by decide

theorem witness_OperandFieldsOfWord :
    decode 0x02FFFFFF = .ok (.adv 16777215) ∧ decode 0x03000001 = .ok (.xorin true) ∧
    decode 0x10000003 = .ok (.absb true true) ∧ decode 0x110001FF = .ok (.absy 0xFF true) ∧
    decode 0x200000FF = .ok (.tohex 255) := by decide

/-- Both ends of each reserved range, and a state on whose turn such a word is written. -/
theorem witness_ReservedOpcodesAreBadop :
    ([0x05000000, 0x0F000000, 0x13000000, 0x1FFFFFFF, 0x22000000, 0x2F000000, 0x31000000, 0xFFFFFFFF].map
      fun w => decode (BitVec.ofNat 32 w)) = List.replicate 8 (.error .reservedOpcode) ∧
    ({ State.reset with hostOps := [.write (Config.base + 0x000) 4 0x05000000] } : State).pending = none := by decide +kernel

/-- The least malformed word of each format. -/
theorem witness_MalformedWordsAreBadop :
    ([0x00000001, 0x01000001, 0x04000001, 0x12000001, 0x21000001, 0x30000001, 0x03000002, 0x10000004, 0x11000200,
      0x20000100].map fun w => decode (BitVec.ofNat 32 w)) = List.replicate 10 (.error .malformed) ∧
    ({ State.reset with hostOps := [.write (Config.base + 0x000) 4 0x03000002] } : State).pending = none := by decide +kernel

theorem witness_SeedIndependentOfPrecision : ∀ d ∈ [9, 9, 0], d < 10 := by decide

/-- L2.2: the feedback on SEED is (Pf, Qf, Lf) = (1, 0, 0). -/
theorem witness_RoundBitByBit : feedbackP SEED = true ∧ feedbackQ SEED = false ∧ feedbackL SEED = false := by decide

theorem witness_RoundIsNotInjective :
    (0 : SReg).getMsbD 11 = (0 : SReg).getMsbD 55 ∧ (0 : SReg).getMsbD 48 = (0 : SReg).getMsbD 121 := by decide

theorem witness_AbsbAbsorbsOneBit :
    afterInit.phase = .ready ∧ ({ afterInit with phase := .absorbing } : State).phase = .absorbing ∧
    State.reset.phase = .idle ∧ ({ afterInit with phase := .absorbed } : State).phase = .absorbed ∧
    ({ afterInit with phase := .squeezed } : State).phase = .squeezed := by decide

theorem witness_AbsyIsEightAbsb : afterInit.phase = .ready ∧ State.reset.phase = .idle := by decide

theorem witness_FinalSqueezesDigest :
    (afterInit.phase = .ready ∧ advance afterInit.S 324 = advance afterInit.S 324) ∧
    ({ afterInit with phase := .absorbed } : State).phase = .absorbed ∧
    ({ afterInit with phase := .absorbing } : State).phase = .absorbing ∧ State.reset.phase = .idle ∧
    ({ afterInit with phase := .squeezed } : State).phase = .squeezed :=
  ⟨⟨rfl, rfl⟩, rfl, rfl, rfl, rfl⟩

theorem witness_TohexRendersDigest :
    ((1 ≤ 1 ∧ 1 ≤ 160) ∧ (1 ≤ 160 ∧ 160 ≤ 160)) ∧ (0 < 1 ∨ 160 < 0) ∧ (161 < 1 ∨ 160 < 161) := by decide

/-- "0xABC", and the empty text. -/
theorem witness_HexinParsesText :
    ((withText (ascii "0xABC")).hexinLen.toNat ≤ 64 ∧
      (withText (ascii "0xABC")).hexin.toList.take (withText (ascii "0xABC")).hexinLen.toNat =
        [0x30, 0x78] ++ [0x41, 0x42, 0x43] ∧
      List.Forall₂ HexDigitValue [0x41, 0x42, 0x43] [10, 11, 12]) ∧
    ((withText []).hexin.toList.take (withText []).hexinLen.toNat = [] ++ []) := by
  exact ⟨⟨by decide +kernel, by decide +kernel, .cons (by decide) (.cons (by decide) (.cons (by decide) .nil))⟩,
    by decide +kernel⟩

theorem witness_HexinRefusesBadText :
    64 < ({ State.reset with hexinLen := 65 } : State).hexinLen.toNat ∧
    ((withText (ascii "0xg")).hexin.toList.take (withText (ascii "0xg")).hexinLen.toNat = [0x30, 0x78] ++ [0x67] ∧
      (withText (ascii "x1")).hexin.toList.take (withText (ascii "x1")).hexinLen.toNat = [] ++ [0x78, 0x31]) ∧
    (∀ v, ¬ HexDigitValue 0x67 v) ∧ ∀ v, ¬ HexDigitValue 0x78 v := by
  refine ⟨by decide, ⟨by decide +kernel, by decide +kernel⟩, ?_, ?_⟩ <;> intro v <;> simp [HexDigitValue]

theorem hexDigits_replicate {c : Byte} {v : Nat} (h : HexDigitValue c v) :
    ∀ {n : Nat}, List.Forall₂ HexDigitValue (List.replicate n c) (List.replicate n v)
  | 0 => .nil
  | _ + 1 => .cons h (hexDigits_replicate h)

theorem witness_HexTextCornerCases :
    List.Forall₂ HexDigitValue (List.replicate 39 0x31) (List.replicate 39 1) ∧
    List.Forall₂ HexDigitValue (List.replicate 41 0x66) (List.replicate 41 15) := by
  constructor <;> exact hexDigits_replicate (by decide)

theorem witness_HexinRestoresRenderedDigest :
    ∃ t, exec (.tohex 160) withE = .next t ∧
      ∃ u : State, u.hexinLen = 40 ∧ ∀ c : Fin 40, u.hexin[c.val]'(by omega) = t.hexout[c] := by
  refine ⟨_, rfl, { withText (ascii "e50a9a3f562b83f9e1708292b618682ed44345df") with hexinLen := 40 }, rfl, ?_⟩
  decide +kernel

theorem witness_HexinIgnoresCharactersPastLength :
    ∀ c : Fin 64, c.val < State.reset.hexinLen.toNat → (Vector.replicate 64 (0x7A : Byte))[c] = State.reset.hexin[c] := by
  intro c h
  exact absurd h (Nat.not_lt_zero _)

/-- For each register, a command that does change it. -/
theorem witness_CommandsWriteOnlyTheirRegisters :
    (ran State.reset 0x01000000).map (fun t => (t.S != State.reset.S, t.phase != State.reset.phase)) = some (true, true) ∧
    (ran (withText (ascii "0xABC")) 0x21000000).map (fun t => t.D != State.reset.D) = some true ∧
    (ran withE 0x20000004).map (fun t => (t.hexout != withE.hexout, t.hv != withE.hv)) = some (true, true) ∧
    (ran { afterInit with bitcnt := 7, dv := true } 0x01000000).map (fun t => (t.bitcnt, t.dv)) = some (0, false) := by
  decide +kernel

/-- Each error is raised from a state without one, and each boundary of the lengths. -/
theorem witness_ErrorConditions :
    State.reset.err = .none ∧ acceptError .final State.reset = some .seq ∧ acceptError (.tohex 0) State.reset = some .badlen ∧
    acceptError (.tohex 161) State.reset = some .badlen ∧ acceptError (.tohex 1) State.reset = none ∧
    acceptError .hexin { State.reset with hexinLen := 65 } = some .badlen ∧
    acceptError .hexin { State.reset with hexinLen := 64 } = some .badhex := by decide +kernel

theorem witness_ValidityFlags : acceptError .final afterInit = none ∧ acceptError (.tohex 160) afterInit = none ∧
    acceptError .init State.reset = none := by decide

/-- Every move of PHASE happens. -/
theorem witness_PhaseMoves :
    (∃ t, exec .init State.reset = .next t ∧ t.phase = .ready) ∧
    (∃ t, exec (.absb true false) afterInit = .next t ∧ t.phase = .absorbing) ∧
    (∃ t, exec (.absb true true) afterInit = .next t ∧ t.phase = .absorbed) ∧
    (∃ t, exec .final afterInit = .next t ∧ t.phase = .squeezed) :=
  ⟨⟨_, rfl, rfl⟩, ⟨_, rfl, rfl⟩, ⟨_, rfl, rfl⟩, ⟨_, rfl, rfl⟩⟩

/-- A step that moves PHASE by the reset input, and one that moves it by a command's completion. -/
theorem witness_StepMovesPhase :
    (∃ t, step { afterInit with hostOps := [.reset] } = .next t ∧ t.phase = .idle ∧ afterInit.phase = .ready) ∧
    ∃ t, step (State.reset.withFetchWord 32 0x01000000) = .next t ∧ t.phase = .ready ∧ State.reset.phase = .idle :=
  ⟨⟨_, rfl, rfl, rfl⟩, ⟨_, rfl, rfl, rfl⟩⟩

theorem witness_ForgottenLastNeedsInit :
    ({ afterInit with phase := .absorbing } : State).phase = .absorbing ∧
    ∀ i ∈ [Instr.absb true false, .adv 1, .sqz1, .final],
      i ≠ .init ∧ (∀ b, i ≠ .absb b true) ∧ ∀ y, i ≠ .absy y true := by
  simp

/-- The first and last offset of every run of registers is mapped, and their neighbours are not. -/
theorem witness_BusErrorsExactly :
    (∀ off ∈ [0x000, 0x014, 0x020, 0x034, 0x040, 0x050, 0x060, 0x084, 0x0A0, 0x0DC], MappedOffset off) ∧
    (∀ off ∈ [0x002, 0x018, 0x01C, 0x038, 0x03C, 0x054, 0x05C, 0x088, 0x09C, 0x0E0, 0x0FC, 0x100], ¬ MappedOffset off) ∧
    (∀ p, ({ State.reset with hostOps := [.read (Config.base + 0x018) 4] } : State).pending ≠ some ⟨p, 0⟩) ∧
    (∀ p, (busyState [.write (Config.base + 0x018) 4 0]).pending ≠ some ⟨p, 0⟩) ∧
    (Config.base + 256 < Config.base ∨ Config.base + 256 ≤ Config.base + 256) := by
  refine ⟨by decide, by decide, ?_, ?_, .inr (Nat.le_refl _)⟩ <;> simp [State.reset, busyState]

theorem witness_IdleReadsReturnRegisters :
    ({ withE with hostOps := [.read (Config.base + 0x050) 4] } : State).pending = none ∧ MappedOffset 0x050 ∧
    (∀ w : Fin 6, MappedOffset (0x020 + 4 * w.val)) ∧ (∀ w : Fin 5, MappedOffset (0x040 + 4 * w.val)) ∧
    (∀ w : Fin 10, MappedOffset (0x060 + 4 * w.val)) ∧ ∀ w : Fin 16, MappedOffset (0x0A0 + 4 * w.val) := by decide

theorem witness_BusyReadsExactParts :
    (busyState [.read (Config.base + 0x004) 4]).pending = some ⟨0x00000000, 0 + 1⟩ ∧ MappedOffset 0x004 ∧ MappedOffset 0x000 ∧
    MappedOffset 0x014 ∧ ∀ w : Fin 16, MappedOffset (0x0A0 + 4 * w.val) := by decide

theorem witness_StateWritesSetWord :
    ∀ w : Fin 6, ({ State.reset with hostOps := [.write (Config.base + (0x020 + 4 * w.val)) 4 0xFFFFFFFF] } : State).pending = none := by
  decide

theorem witness_HexinWritesSetCharacters :
    (∀ w : Fin 16, ({ State.reset with hostOps := [.write (Config.base + (0x0A0 + 4 * w.val)) 4 0x42417830] } : State).hostOps =
      .write (Config.base + (0x0A0 + 4 * w.val)) 4 0x42417830 :: []) ∧
    ({ State.reset with hostOps := [.write (Config.base + 0x014) 4 5] } : State).hostOps = .write (Config.base + 0x014) 4 5 :: [] := by
  exact ⟨fun _ => rfl, rfl⟩

theorem witness_ReadOnlyWritesIgnored :
    ({ State.reset with hostOps := [.write (Config.base + 0x084) 4 1] } : State).pending = none ∧
    (busyState [.write (Config.base + 0x004) 4 1]).pending = some ⟨0x00000000, 0 + 1⟩ := by decide

theorem witness_BusyWritesRefused :
    (busyState [.write (Config.base + 0x000) 4 0]).pending = some ⟨0x00000000, 0 + 1⟩ ∧
    (busyState [.write (Config.base + 0x0DC) 4 0]).hostOps = .write (Config.base + 0x0DC) 4 0 :: [] ∧
    0x0DC = 0x0A0 + 4 * (15 : Fin 16).val ∧ 0x034 = 0x020 + 4 * (5 : Fin 6).val :=
  ⟨rfl, rfl, rfl, rfl⟩

theorem witness_ResetAbandonsPendingCommand :
    (busyState [.reset]).hostOps = .reset :: [] ∧ (∃ p d, (busyState [.reset]).pending = some ⟨p, d + 1⟩) ∧
    ({ afterInit with hostOps := [.reset] } : State).pending = none :=
  ⟨rfl, ⟨_, _, rfl⟩, rfl⟩

/-- A refused word, a command refused by its own check, an accepted command, and a write while busy. -/
theorem witness_CommandWriteLifecycle :
    decode 0x05000000 = .error .reservedOpcode ∧ decode 0x12000000 = .ok .final ∧
    acceptError .final State.reset = some .seq ∧ acceptError .final afterInit = none ∧
    (busyState [.write (Config.base + 0x000) 4 0x12000000]).pending = some ⟨0x00000000, 0 + 1⟩ := by decide

theorem witness_StepRunsDecodedCommand :
    (State.reset.withFetchWord 32 0x01000000).pending = some ⟨0x01000000, 0⟩ ∧ decode 0x01000000 = .ok .init ∧
    (busyState []).pending = some ⟨0x00000000, 0 + 1⟩ ∧ State.reset.pending = none := by decide

theorem witness_PendingFreezesRegisters :
    (busyState [.write (Config.base + 0x000) 4 0]).pending = some ⟨0x00000000, 0 + 1⟩ ∧
    (∀ rest, (busyState [.write (Config.base + 0x000) 4 0]).hostOps ≠ .reset :: rest) ∧
    ∃ t, step (busyState [.write (Config.base + 0x000) 4 0]) = .next t := by
  refine ⟨rfl, by simp [busyState], ?_⟩
  simp only [step, busyState, hostTurn, busDecode_base (show 0x000 < windowBytes by decide)]
  exact ⟨_, rfl⟩

theorem witness_PendingCommandCompletes :
    (busyState [.wait]).pending = some ⟨0x00000000, 1⟩ ∧ decode 0x00000000 = .ok .nop ∧
    (busyState [.wait]).hostOps = .wait :: [] := by decide

theorem witness_BusProgramRunsCommands :
    (∀ i ∈ hashBytes [0x61, 0x62, 0x63], i.WellFormed) ∧
    ({ State.reset with hostOps := commandLines (hashBytes [0x61, 0x62, 0x63]) } : State).Quiet := by decide

theorem witness_LoadhexProgramParsesText :
    (ascii "abc").length ≤ 64 ∧ List.Forall₂ HexDigitValue [0x61, 0x62, 0x63] [10, 11, 12] ∧
    ({ State.reset with hostOps := loadhex (ascii "abc") } : State).Quiet := by
  exact ⟨by decide, .cons (by decide) (.cons (by decide) (.cons (by decide) .nil)), rfl⟩

/-- A run of one WAIT from an idle block ends. -/
theorem witness_RunEnds : ∃ t, RunEnds { State.reset with hostOps := [.wait] } 1 t := by
  have hw := pollsIdle_wait (s := { State.reset with hostOps := [.wait] }) rfl rfl
  exact ⟨_, runSteps_of_next hw.1, rfl, rfl, 0, _, _, Nat.zero_lt_one, rfl, hw, by simp⟩

theorem witness_LaunchPremises : State.reset.Quiet ∧ State.reset.NoErr ∧ State.reset.AtReset := by decide +kernel

/-- The reset state has the invariant and its step answers. -/
theorem witness_StepKeepsInvariant : State.reset.Inv ∧ ∃ t, step State.reset = .next t := by
  refine ⟨⟨by decide, ?_, ?_, ?_, ?_, ?_⟩, _, rfl⟩ <;> simp [State.reset]

end Sys2Proof.Tests
end

section
/-! PROOFS. Whose turn a step is, and which host accesses go through. -/

namespace Sys2Proof.Machine

/-! ## Whose turn a step is (R283) -/

/-- With no command pending it is the host's turn. -/
theorem step_of_pending_none {s : State} (hp : s.pending = none) : step s = hostTurn s := by
  simp only [step, hp]

/-- A command whose delay has run out is the engine's to complete. -/
theorem step_of_pending_zero {s : State} {w : Word} (hp : s.pending = some ⟨w, 0⟩) :
    step s = engineComplete w { s with pending := none } := by
  simp only [step, hp]

/-- A command with delay left gives the host a turn, which the delay counts. -/
theorem step_of_pending_succ {s : State} {w : Word} {d : Nat} (hp : s.pending = some ⟨w, d + 1⟩) :
    step s = hostTurn { s with pending := some ⟨w, d⟩ } := by
  simp only [step, hp]

/-- Completing a word that decodes is that command's `exec`. -/
theorem engineComplete_of_decode_ok {w : Word} {i : Instr} (hd : decode w = .ok i) (s : State) :
    engineComplete w s = exec i s := by
  simp only [engineComplete, hd]

/-- Unless a command is about to complete, the step is a host turn from a state that differs at most in the pending
register. -/
theorem step_eq_hostTurn {s : State} (hp : ∀ w, s.pending ≠ some ⟨w, 0⟩) :
    ∃ p, step s = hostTurn { s with pending := p } := by
  rcases step_cases s with ⟨h, hs⟩ | ⟨w, h, -⟩ | ⟨w, d, -, hs⟩
  · exact ⟨none, by rw [hs, ← h]⟩
  · exact absurd h (hp w)
  · exact ⟨some ⟨w, d⟩, hs⟩

/-! ## What the bus answers (R50 to R52) -/

/-- A mapped offset is one of the window's bytes (R51). -/
theorem MappedOffset.lt_windowBytes {off : Nat} (h : MappedOffset off) : off < windowBytes := by
  unfold windowBytes
  omega

/-- Every byte address is an offset of the window from BASE, or outside the window (R50). -/
theorem window_or_outside (addr : Nat) :
    (∃ off, off < windowBytes ∧ addr = Config.base + off) ∨
      (addr < Config.base ∨ Config.base + windowBytes ≤ addr) := by
  by_cases h : addr < Config.base ∨ Config.base + windowBytes ≤ addr
  · exact .inr h
  · exact .inl ⟨addr - Config.base, by omega, by omega⟩

/-- The accesses the bus answers are the 4-byte ones at BASE plus a mapped offset (R51, R52). -/
theorem busDecode_ok_iff (addr width : Nat) :
    (∃ r, busDecode addr width = .ok r) ↔ width = 4 ∧ ∃ off, addr = Config.base + off ∧ MappedOffset off := by
  constructor
  · intro hr
    rcases window_or_outside addr with ⟨off, hlt, rfl⟩ | hout
    · rw [busDecode_base hlt, windowDecode_ok_iff] at hr
      obtain ⟨hw, hm⟩ := hr
      exact ⟨hw, off, rfl, hm⟩
    · simp [busDecode_outside hout] at hr
  · rintro ⟨hw, off, rfl, hm⟩
    rw [busDecode_base hm.lt_windowBytes, windowDecode_ok_iff]
    exact ⟨hw, hm⟩

/-- The bus names an access outside the window exactly when its address is outside (log 7). -/
theorem busDecode_outsideWindow_iff (addr width : Nat) :
    busDecode addr width = .error .outsideWindow ↔
      addr < Config.base ∨ Config.base + windowBytes ≤ addr := by
  refine ⟨fun h => ?_, busDecode_outside⟩
  rcases window_or_outside addr with ⟨off, hlt, rfl⟩ | hout
  · rw [busDecode_base hlt] at h
    exact absurd h (windowDecode_ne_outsideWindow off width)
  · exact hout

/-! ## What the host's turn makes of the bus's answer -/

/-- The next thing the host does is an access of `width` bytes at `addr`, a write or a read. -/
def State.NextAccess (s : State) (addr width : Nat) : Prop :=
  ∃ rest, (∃ v, s.hostOps = .write addr width v :: rest) ∨ s.hostOps = .read addr width :: rest

/-- An access the bus answers goes through. -/
theorem hostTurn_of_busDecode_ok {s : State} {addr width : Nat} {r : WindowReg} (ha : s.NextAccess addr width)
    (hb : busDecode addr width = .ok r) : ∃ t, hostTurn s = .next t := by
  obtain ⟨rest, ⟨v, ho⟩ | ho⟩ := ha
  · exact ⟨writeReg r v { s with hostOps := rest }, by simp only [hostTurn, ho, hb]⟩
  · exact ⟨readReg addr r { s with hostOps := rest }, by simp only [hostTurn, ho, hb]⟩

/-- An access the bus refuses stops the run with the bus's fault. -/
theorem hostTurn_of_busDecode_error {s : State} {addr width : Nat} {f : Fault} (ha : s.NextAccess addr width)
    (hb : busDecode addr width = .error f) : hostTurn s = .fault f := by
  obtain ⟨rest, ⟨v, ho⟩ | ho⟩ := ha
  · simp only [hostTurn, ho, hb]
  · simp only [hostTurn, ho, hb]

/-! ## The obligations -/

/-- Settles O38: the host's turn follows the bus's decision, and the bus answers exactly the mapped accesses. -/
theorem busErrorsExactly : Obligations.BusErrorsExactly := by
  intro s addr width v rest hp hops
  obtain ⟨p, hstep⟩ := step_eq_hostTurn hp
  have ha : { s with pending := p }.NextAccess addr width := ⟨rest, hops.imp_left fun h => ⟨v, h⟩⟩
  rw [hstep, ← busDecode_ok_iff]
  cases hb : busDecode addr width with
  | ok r => exact ⟨fun _ => hostTurn_of_busDecode_ok ha hb, fun hno => absurd ⟨r, rfl⟩ hno⟩
  | error f =>
    refine ⟨fun ⟨_, hr⟩ => absurd hr (by simp), fun _ => ⟨f, hostTurn_of_busDecode_error ha hb, ?_⟩⟩
    have hout := busDecode_outsideWindow_iff addr width
    rwa [hb, Except.error.injEq] at hout

/-- Settles O48: the three equations of `step`, with the completion of a decoded word. -/
theorem stepRunsDecodedCommand : Obligations.StepRunsDecodedCommand := by
  intro s
  refine ⟨fun w i hp hd => ?_, fun _ _ => step_of_pending_succ, step_of_pending_none⟩
  rw [step_of_pending_zero hp, engineComplete_of_decode_ok hd]

end Sys2Proof.Machine
end

section
/-! PROOFS. What a command changes and what it leaves alone: one lemma per register, from `exec_cases`. -/

namespace Sys2Proof.Machine

/-! ## What the commands with long loops write -/

/-- What an accepted ABSB writes (R144). -/
theorem effectOf_absb (b last : Bool) (s : State) :
    ∃ S', effectOf (.absb b last) s = { s with S := S', bitcnt := s.bitcnt + 1, phase := phaseAfterBit last } :=
  ⟨_, rfl⟩

/-- What an accepted ABSY writes: its eight bits move PHASE as their last one does (R145). -/
theorem effectOf_absy (y : Byte) (last : Bool) (s : State) :
    ∃ S', effectOf (.absy y last) s = { s with S := S', bitcnt := s.bitcnt + 8, phase := phaseAfterBit last } := by
  obtain ⟨S', phase', h⟩ := absorbBits_eq (byteBits y) last s
  have hphase : (absorbBits (byteBits y) last s).phase = phaseAfterBit last := absorbBits_phase _ _ last s
  rw [h] at hphase
  exact ⟨S', by simp only [effectOf, h, ← hphase]⟩

/-- What an accepted FINAL writes (R146). -/
theorem effectOf_final (s : State) :
    ∃ S' D', effectOf .final s = { s with S := S', D := D', phase := .squeezed, dv := true, hv := false } :=
  ⟨_, _, rfl⟩

/-- Absorbing neither reads nor writes BITCNT (R153). -/
theorem absorbBits_with_bitcnt (bits : List Bool) (last : Bool) (s : State) (k : BitVec 64) :
    absorbBits bits last { s with bitcnt := k } = { absorbBits bits last s with bitcnt := k } := by
  induction bits generalizing s with
  | nil => rfl
  | cons b rest ih =>
    cases rest with
    | nil => rfl
    | cons c rest => exact ih (absorbBit b false s)

/-! ## What an accepted command leaves alone -/

/-- A command that passes its checks has its whole effect. -/
theorem exec_of_accepted {i : Instr} {s : State} (h : acceptError i s = none) : exec i s = .next (effectOf i s) := by
  rw [exec_eq_checked, h, checked_none]

/-- What no command writes: HEXIN, HEXIN_LEN, the pending register and the host's side. -/
theorem effectOf_frame (i : Instr) (s : State) :
    (effectOf i s).hexin = s.hexin ∧ (effectOf i s).hexinLen = s.hexinLen ∧ (effectOf i s).pending = s.pending ∧
    (effectOf i s).hostOps = s.hostOps ∧ (effectOf i s).replies = s.replies ∧ (effectOf i s).draws = s.draws := by
  cases i with
  | absy y last =>
    obtain ⟨S', h⟩ := effectOf_absy y last s
    simp [h]
  | final =>
    obtain ⟨S', D', h⟩ := effectOf_final s
    simp [h]
  | nop | init | adv _ | xorin _ | sqz1 | absb _ _ | tohex _ | hexin | clrerr =>
    exact ⟨rfl, rfl, rfl, rfl, rfl, rfl⟩

/-- The commands that write S (R21). -/
theorem effectOf_S_of_notMem {i : Instr} (s : State)
    (h : i.opcode ∉ [Opcode.INIT, .ADV, .XORIN, .ABSB, .ABSY, .FINAL, .SQZ1]) : (effectOf i s).S = s.S := by
  cases i with
  | nop | tohex _ | hexin | clrerr => rfl
  | init | adv _ | xorin _ | sqz1 | absb _ _ | absy _ _ | final => simp [Instr.opcode] at h

/-- The commands that write D (R22). -/
theorem effectOf_D_of_notMem {i : Instr} (s : State) (h : i.opcode ∉ [Opcode.SQZ1, .FINAL, .HEXIN]) :
    (effectOf i s).D = s.D := by
  cases i with
  | absy y last =>
    obtain ⟨S', h⟩ := effectOf_absy y last s
    rw [h]
  | nop | init | adv _ | xorin _ | absb _ _ | tohex _ | clrerr => rfl
  | sqz1 | final | hexin => simp [Instr.opcode] at h

/-- Only TOHEX writes HEXOUT and HEXOUT_LEN (R24). -/
theorem effectOf_hexout_of_ne {i : Instr} (s : State) (h : i.opcode ≠ .TOHEX) :
    (effectOf i s).hexout = s.hexout ∧ (effectOf i s).hexoutLen = s.hexoutLen := by
  cases i with
  | absy y last =>
    obtain ⟨S', h⟩ := effectOf_absy y last s
    simp [h]
  | final =>
    obtain ⟨S', D', h⟩ := effectOf_final s
    simp [h]
  | nop | init | adv _ | xorin _ | sqz1 | absb _ _ | hexin | clrerr => exact ⟨rfl, rfl⟩
  | tohex _ => exact absurd rfl h

/-- The commands that write BITCNT (R26). -/
theorem effectOf_bitcnt_of_notMem {i : Instr} (s : State) (h : i.opcode ∉ [Opcode.INIT, .ABSB, .ABSY]) :
    (effectOf i s).bitcnt = s.bitcnt := by
  cases i with
  | final =>
    obtain ⟨S', D', h⟩ := effectOf_final s
    simp [h]
  | nop | adv _ | xorin _ | sqz1 | tohex _ | hexin | clrerr => rfl
  | init | absb _ _ | absy _ _ => simp [Instr.opcode] at h

/-- The commands that write PHASE (R28). -/
theorem effectOf_phase_of_notMem {i : Instr} (s : State) (h : i.opcode ∉ [Opcode.INIT, .ABSB, .ABSY, .FINAL]) :
    (effectOf i s).phase = s.phase := by
  cases i with
  | nop | adv _ | xorin _ | sqz1 | tohex _ | hexin | clrerr => rfl
  | init | absb _ _ | absy _ _ | final => simp [Instr.opcode] at h

/-- DV after an accepted command (R30). -/
theorem effectOf_dv (i : Instr) (s : State) :
    (effectOf i s).dv = if i.opcode = .FINAL then true
      else if i.opcode = .INIT ∨ i.opcode = .SQZ1 ∨ i.opcode = .HEXIN then false else s.dv := by
  cases i with
  | absy y last =>
    obtain ⟨S', h⟩ := effectOf_absy y last s
    simp [h, Instr.opcode]
  | nop | init | adv _ | xorin _ | sqz1 | absb _ _ | final | tohex _ | hexin | clrerr => rfl

/-- HV after an accepted command (R31). -/
theorem effectOf_hv (i : Instr) (s : State) :
    (effectOf i s).hv = if i.opcode = .TOHEX then true
      else if i.opcode = .SQZ1 ∨ i.opcode = .FINAL ∨ i.opcode = .HEXIN then false else s.hv := by
  cases i with
  | absy y last =>
    obtain ⟨S', h⟩ := effectOf_absy y last s
    simp [h, Instr.opcode]
  | nop | init | adv _ | xorin _ | sqz1 | absb _ _ | final | tohex _ | hexin | clrerr => rfl

/-! ## What the checks and effects do not read, and the phases they allow -/

/-- A command's checks do not read BITCNT (R153). -/
theorem acceptError_with_bitcnt (i : Instr) (s : State) (k : BitVec 64) :
    acceptError i { s with bitcnt := k } = acceptError i s := by
  cases i <;> rfl

/-- A command's effect on two states that differ only in BITCNT differs only in BITCNT (R26, R153). -/
theorem effectOf_with_bitcnt (i : Instr) (s : State) (k : BitVec 64) :
    ∃ k', effectOf i { s with bitcnt := k } = { effectOf i s with bitcnt := k' } := by
  cases i with
  | init => exact ⟨0, rfl⟩
  | absb b last => exact ⟨k + 1, rfl⟩
  | absy y last => exact ⟨k + 8, by simp only [effectOf, absorbBits_with_bitcnt]⟩
  | nop | adv _ | xorin _ | sqz1 | final | tohex _ | hexin | clrerr => exact ⟨k, rfl⟩

/-- ABSB and ABSY are accepted in READY and ABSORBING (R245). -/
theorem absorbError_eq_none_iff {s : State} : absorbError s = none ↔ s.phase = .ready ∨ s.phase = .absorbing := by
  simp [absorbError_eq, or_iff_not_imp_left]

/-- FINAL is accepted in READY and ABSORBED (R245). -/
theorem finalError_eq_none_iff {s : State} : finalError s = none ↔ s.phase = .ready ∨ s.phase = .absorbed := by
  simp [finalError_eq, or_iff_not_imp_left]

/-- The moves of PHASE that a message bit makes where it is accepted: without LAST only the first bit moves it. -/
theorem phaseAfterBit_moves {last : Bool} {p : Phase} (hp : p = .ready ∨ p = .absorbing)
    (hne : phaseAfterBit last ≠ p) :
    (last = false ∧ p = .ready ∧ phaseAfterBit last = .absorbing) ∨
      (last = true ∧ (p = .ready ∨ p = .absorbing) ∧ phaseAfterBit last = .absorbed) := by
  cases last with
  | false => exact .inl ⟨rfl, hp.resolve_right fun h => hne h.symm, rfl⟩
  | true => exact .inr ⟨rfl, hp, rfl⟩

/-! ## The obligations about commands -/

/-- Settles O33: neither the checks nor the effect reads BITCNT. -/
theorem bitcntIsInformational : Obligations.BitcntIsInformational := by
  intro i s k
  rw [exec_eq_checked i s, exec_eq_checked i { s with bitcnt := k }, acceptError_with_bitcnt i s k]
  cases acceptError i s with
  | some e => exact ⟨raiseError e s, k, rfl, rfl⟩
  | none =>
    obtain ⟨k', hk⟩ := effectOf_with_bitcnt i s k
    exact ⟨effectOf i s, k', rfl, congrArg _ hk⟩

/-- Settles O34: a refused command writes ERR only, and an accepted one only what its row of the frame lemmas says. -/
theorem commandsWriteOnlyTheirRegisters : Obligations.CommandsWriteOnlyTheirRegisters := by
  intro i s t h
  rcases exec_cases h with ⟨e, -, rfl⟩ | ⟨-, rfl⟩
  · simp
  · refine ⟨Not.imp_symm (effectOf_S_of_notMem s), Not.imp_symm (effectOf_D_of_notMem s), ?_,
      Not.imp_symm (effectOf_bitcnt_of_notMem s), Not.imp_symm (effectOf_phase_of_notMem s), ?_, ?_, effectOf_frame i s⟩
    · rw [← not_and_or]
      exact Not.imp_symm (effectOf_hexout_of_ne s)
    · exact Not.imp_symm fun hmem => by
        simp only [List.mem_cons, List.not_mem_nil, or_false, not_or] at hmem
        simp [effectOf_dv, hmem]
    · exact Not.imp_symm fun hmem => by
        simp only [List.mem_cons, List.not_mem_nil, or_false, not_or] at hmem
        simp [effectOf_hv, hmem]

/-- Settles O35: an accepted command has its whole effect, whose flags are `effectOf_dv` and `effectOf_hv`. -/
theorem validityFlags : Obligations.ValidityFlags :=
  fun i s h => ⟨effectOf i s, exec_of_accepted h, effectOf_dv i s, effectOf_hv i s⟩

/-- Settles O36: a refused command keeps PHASE, and the checks of R245 give an accepted one's source phase. -/
theorem phaseMoves : Obligations.PhaseMoves := by
  intro i s t h hne
  rcases exec_cases h with ⟨e, -, rfl⟩ | ⟨ha, rfl⟩
  · exact absurd rfl hne
  · cases i with
    | init => exact .inl ⟨rfl, rfl⟩
    | absb b last =>
      obtain ⟨S', h⟩ := effectOf_absb b last s
      rw [h] at hne ⊢
      rcases phaseAfterBit_moves (absorbError_eq_none_iff.1 ha) hne with ⟨rfl, hm⟩ | ⟨rfl, hm⟩
      · exact .inr (.inl ⟨.inl ⟨b, rfl⟩, hm⟩)
      · exact .inr (.inr (.inl ⟨.inl ⟨b, rfl⟩, hm⟩))
    | absy y last =>
      obtain ⟨S', h⟩ := effectOf_absy y last s
      rw [h] at hne ⊢
      rcases phaseAfterBit_moves (absorbError_eq_none_iff.1 ha) hne with ⟨rfl, hm⟩ | ⟨rfl, hm⟩
      · exact .inr (.inl ⟨.inr ⟨y, rfl⟩, hm⟩)
      · exact .inr (.inr (.inl ⟨.inr ⟨y, rfl⟩, hm⟩))
    | final => exact .inr (.inr (.inr ⟨rfl, finalError_eq_none_iff.1 ha, rfl⟩))
    | nop | adv _ | xorin _ | sqz1 | tohex _ | hexin | clrerr => exact absurd rfl hne

end Sys2Proof.Machine
end

section
/-! PROOFS. What a host turn leaves alone, and the block's invariant: the host writes no register that the invariant
ties together, and each command keeps the ties of the registers it writes. -/

namespace Sys2Proof.Machine

/-! ## The registers no bus access writes (R57 to R60) -/

/-- `t` has the values of `s` in every register that only commands write: D, HEXOUT, HEXOUT_LEN, BITCNT, PHASE, DV and
HV. -/
def KeepsComputed (s t : State) : Prop :=
  t = { s with
    S := t.S, hexin := t.hexin, hexinLen := t.hexinLen, err := t.err, pending := t.pending, hostOps := t.hostOps,
    replies := t.replies, draws := t.draws }

theorem KeepsComputed.phase {s t : State} (h : KeepsComputed s t) : t.phase = s.phase := by
  rw [h]

theorem presentCommand_keepsComputed (w : Word) (s : State) : KeepsComputed s (presentCommand w s) := by
  rcases presentCommand_cases w s with ⟨-, h⟩ | ⟨-, -, h⟩ | ⟨-, i, e, -, -, h⟩ | ⟨-, i, -, -, h⟩ <;> rw [h] <;> rfl

theorem writeReg_keepsComputed (r : WindowReg) (v : Word) (s : State) : KeepsComputed s (writeReg r v s) := by
  rcases writeReg_cases r v s with ⟨-, h⟩ | ⟨h, -⟩ | ⟨-, ⟨-, h⟩ | ⟨w, -, h⟩ | ⟨w, -, h⟩⟩ | h
  · rw [h]
    exact presentCommand_keepsComputed v s
  all_goals rw [h]; rfl

theorem readReg_keepsComputed (addr : Nat) (r : WindowReg) (s : State) : KeepsComputed s (readReg addr r s) := by
  obtain ⟨v, draws, h⟩ := readReg_eq addr r s
  rw [h]
  rfl

/-- A host turn is the reset input, or writes none of the registers that only commands write. -/
theorem hostTurn_keepsComputed {s t : State} (h : hostTurn s = .next t) :
    (∃ rest, s.hostOps = .reset :: rest ∧ t = platformReset { s with hostOps := rest }) ∨ KeepsComputed s t := by
  rcases hostTurn_cases h with ⟨-, rfl⟩ | ⟨_, _, v, rest, r, -, -, rfl⟩ | ⟨addr, _, rest, r, -, -, rfl⟩ |
    ⟨rest, -, ⟨-, rfl⟩ | ⟨-, rfl⟩⟩ | hreset
  · exact .inr rfl
  · exact .inr (writeReg_keepsComputed r v { s with hostOps := rest })
  · exact .inr (readReg_keepsComputed addr r { s with hostOps := rest })
  · exact .inr (readReg_keepsComputed _ .status s)
  · exact .inr (readReg_keepsComputed _ .status { s with hostOps := rest })
  · exact .inl hreset

/-! ## A busy block's host turn (R59, R60) -/

/-- A host write to a busy block is refused with ERR_BUSY or ignored (R57, R59). -/
theorem writeReg_of_busy {s : State} (hb : s.busy = true) (r : WindowReg) (v : Word) :
    writeReg r v s = raiseError .busy s ∨ writeReg r v s = s := by
  cases r with
  | cmd => exact .inl (if_pos hb)
  | hexinLen | state _ | hexin _ => exact .inl (if_pos hb)
  | status | bitcntLo | bitcntHi | hexoutLen | digest _ | hexout _ => exact .inr rfl

/-- A busy block's host turn without the reset input changes at most ERR and the host's side. -/
theorem hostTurn_of_busy {s t : State} (hb : s.busy = true) (hr : ∀ rest, s.hostOps ≠ .reset :: rest)
    (h : hostTurn s = .next t) :
    ∃ err hostOps replies draws, (err = s.err ∨ err = firstError s.err .busy) ∧
      t = { s with err := err, hostOps := hostOps, replies := replies, draws := draws } := by
  rcases hostTurn_cases h with ⟨-, rfl⟩ | ⟨_, _, v, rest, r, -, -, rfl⟩ | ⟨addr, _, rest, r, -, -, rfl⟩ |
    ⟨rest, -, ⟨-, rfl⟩ | ⟨hi, -⟩⟩ | ⟨rest, ho, -⟩
  · exact ⟨_, _, _, _, .inl rfl, rfl⟩
  · have hb' : { s with hostOps := rest }.busy = true := hb
    rcases writeReg_of_busy hb' r v with hw | hw
    · exact ⟨_, _, _, _, .inr rfl, hw⟩
    · exact ⟨_, _, _, _, .inl rfl, hw⟩
  · obtain ⟨v, draws, hrd⟩ := readReg_eq addr r { s with hostOps := rest }
    exact ⟨_, _, _, _, .inl rfl, hrd⟩
  · obtain ⟨v, draws, hrd⟩ := readReg_eq (Config.base + 0x004) .status s
    exact ⟨_, _, _, _, .inl rfl, hrd⟩
  · simp [hb] at hi
  · exact absurd ho (hr rest)

/-- ERR changes by ERR_BUSY only from no error (R242). -/
theorem firstError_busy_moves {e e' : ErrCode} (h : e' = e ∨ e' = firstError e .busy) (hne : e' ≠ e) :
    e = .none ∧ e' = .busy := by
  obtain rfl := h.resolve_left hne
  rw [firstError_eq_ite] at hne ⊢
  split at hne
  · next he => simp [he]
  · exact absurd rfl hne

/-! ## The invariant under the host's turn -/

/-- The pending word, if any, decodes to a command that passes its checks (R283). -/
def State.PendingAccepted (s : State) : Prop :=
  ∀ p, s.pending = some p → ∃ i, decode p.word = .ok i ∧ acceptError i s = none

theorem pendingAccepted_of_none {s : State} (h : s.pending = none) : s.PendingAccepted := by
  intro p hp
  simp [h] at hp

/-- What a command's checks read (R245 to R247): PHASE, HEXIN and HEXIN_LEN. -/
theorem acceptError_congr {s t : State} (hphase : t.phase = s.phase) (hin : t.hexin = s.hexin)
    (hlen : t.hexinLen = s.hexinLen) (i : Instr) : acceptError i t = acceptError i s := by
  cases i <;> simp [acceptError, absorbError, finalError, hexinError, hexinText, hphase, hin, hlen]

theorem State.PendingAccepted.congr {s t : State} (hs : s.PendingAccepted) (hp : t.pending = s.pending)
    (hphase : t.phase = s.phase) (hin : t.hexin = s.hexin) (hlen : t.hexinLen = s.hexinLen) : t.PendingAccepted := by
  intro p h
  obtain ⟨i, hd, ha⟩ := hs p (hp ▸ h)
  exact ⟨i, hd, (acceptError_congr hphase hin hlen i).trans ha⟩

/-- A CMD write makes only a word pending that decodes and passes its checks. -/
theorem presentCommand_pendingAccepted {s : State} (hs : s.PendingAccepted) (w : Word) :
    (presentCommand w s).PendingAccepted := by
  rcases presentCommand_cases w s with ⟨-, h⟩ | ⟨-, -, h⟩ | ⟨-, i, e, -, -, h⟩ | ⟨-, i, hd, ha, h⟩
  · exact h ▸ hs.congr rfl rfl rfl rfl
  · exact h ▸ hs.congr rfl rfl rfl rfl
  · exact h ▸ hs.congr rfl rfl rfl rfl
  · intro p hp
    rw [h] at hp ⊢
    obtain rfl := Option.some.inj hp
    exact ⟨i, hd, (acceptError_congr rfl rfl rfl i).trans ha⟩

/-- While a command is pending no host write reaches what its checks read. -/
theorem writeReg_pendingAccepted {s : State} (hs : s.PendingAccepted) (r : WindowReg) (v : Word) :
    (writeReg r v s).PendingAccepted := by
  rcases writeReg_cases r v s with ⟨-, h⟩ | ⟨h, -⟩ | ⟨hb, hw⟩ | h
  · exact h ▸ presentCommand_pendingAccepted hs v
  · exact h ▸ hs.congr rfl rfl rfl rfl
  · have hnone : s.pending = none := (busy_eq_false_iff s).1 hb
    refine pendingAccepted_of_none ?_
    rcases hw with ⟨-, h⟩ | ⟨w, -, h⟩ | ⟨w, -, h⟩ <;> rw [h] <;> exact hnone
  · exact h.symm ▸ hs

theorem readReg_pendingAccepted {s : State} (hs : s.PendingAccepted) (addr : Nat) (r : WindowReg) :
    (readReg addr r s).PendingAccepted :=
  hs.congr (by simp) (by simp) (by simp) (by simp)

theorem hostTurn_pendingAccepted {s t : State} (hs : s.PendingAccepted) (h : hostTurn s = .next t) :
    t.PendingAccepted := by
  have hrest (rest : List HostOp) : { s with hostOps := rest }.PendingAccepted := hs.congr rfl rfl rfl rfl
  rcases hostTurn_cases h with ⟨-, rfl⟩ | ⟨_, _, v, rest, r, -, -, rfl⟩ | ⟨addr, _, rest, r, -, -, rfl⟩ |
    ⟨rest, -, ⟨-, rfl⟩ | ⟨-, rfl⟩⟩ | ⟨rest, -, rfl⟩
  · exact hs
  · exact writeReg_pendingAccepted (hrest rest) r v
  · exact readReg_pendingAccepted (hrest rest) addr r
  · exact readReg_pendingAccepted hs _ .status
  · exact readReg_pendingAccepted (hrest rest) _ .status
  · exact pendingAccepted_of_none rfl

/-- The invariant's ties are among the registers that only commands write, and the pending word's acceptance. -/
theorem State.Inv.of_keepsComputed {s t : State} (hs : s.Inv) (hk : KeepsComputed s t) (hp : t.PendingAccepted) :
    t.Inv := by
  rw [hk] at hp ⊢
  exact { hs with pending_accepted := hp }

/-- The reset values meet every part of the invariant with nothing to show but the zeros of HEXOUT (R36). -/
theorem inv_platformReset (s : State) : (platformReset s).Inv where
  hexoutLen_le := by simp [State.reset]
  hexout_tail := by simp [State.reset]
  hv_renders := by simp [State.reset]
  dv_squeezed := by simp [State.reset]
  count_zero := by simp [State.reset]
  pending_accepted := by simp [State.reset]

theorem hostTurn_keeps_inv {s t : State} (hs : s.Inv) (h : hostTurn s = .next t) : t.Inv := by
  rcases hostTurn_keepsComputed h with ⟨rest, -, rfl⟩ | hk
  · exact inv_platformReset _
  · exact hs.of_keepsComputed hk (hostTurn_pendingAccepted hs.pending_accepted h)

/-! ## TOHEX's text fits HEXOUT (R180, R182) -/

theorem length_groupDigits : ∀ bits : List Bool, (groupDigits bits).length = bits.length / 4
  | b0 :: b1 :: b2 :: b3 :: rest => by
    simp only [groupDigits, List.length_cons, length_groupDigits rest]
    omega
  | [] | [_] | [_, _] | [_, _, _] => by simp [groupDigits]

/-- `toHex` gives one digit for every four bits, rounded up. -/
theorem length_toHex (bits : List Bool) : (toHex bits).length = (bits.length + 3) / 4 := by
  simp only [toHex, length_groupDigits, List.length_append, List.length_replicate]
  omega

theorem length_toHex_digestPrefix_le (D : DReg) (n : Nat) : (toHex (digestPrefix D n)).length ≤ 40 := by
  rw [length_toHex, digestPrefix, List.length_take, msbBits_length]
  omega

theorem getElem_hexoutImage (text : List Byte) (c : Fin 40) : (hexoutImage text)[c] = text[c.val]?.getD 0 := by
  simp [hexoutImage]

theorem tohexError_eq_none_iff {n : Nat} : tohexError n = none ↔ 1 ≤ n ∧ n ≤ 160 := by
  simp [tohexError, digestBitCount, Nat.one_le_iff_ne_zero]

/-! ## The invariant under a command -/

/-- An accepted message bit or byte leaves READY or ABSORBING, where DV is 0, for a phase in which bits are counted. -/
theorem State.Inv.of_absorb {s : State} (hs : s.Inv) (ha : absorbError s = none) (last : Bool) (S' : SReg)
    (count : BitVec 64) (hp : s.pending = none) :
    { s with S := S', bitcnt := count, phase := phaseAfterBit last }.Inv where
  hexoutLen_le := hs.hexoutLen_le
  hexout_tail := hs.hexout_tail
  hv_renders := hs.hv_renders
  dv_squeezed hdv := by
    have hphase := absorbError_eq_none_iff.1 ha
    rw [hs.dv_squeezed hdv] at hphase
    simp at hphase
  count_zero hphase := by cases last <;> simp [phaseAfterBit] at hphase
  pending_accepted := pendingAccepted_of_none hp

/-- SQZ1 and HEXIN write D and clear both flags, so nothing is said of D any more (R30, R31). -/
theorem State.Inv.of_digestWrite {s : State} (hs : s.Inv) (S' : SReg) (D' : DReg) (hp : s.pending = none) :
    { s with S := S', D := D', dv := false, hv := false }.Inv where
  hexoutLen_le := hs.hexoutLen_le
  hexout_tail := hs.hexout_tail
  hv_renders := by simp
  dv_squeezed := by simp
  count_zero := hs.count_zero
  pending_accepted := pendingAccepted_of_none hp

/-- TOHEX leaves HEXOUT rendering D, and zeros past the text. -/
theorem State.Inv.of_render {s : State} (hs : s.Inv) {n : Nat} (h1 : 1 ≤ n) (h160 : n ≤ 160) (hp : s.pending = none) :
    { s with
      hexout := hexoutImage (toHex (digestPrefix s.D n)),
      hexoutLen := BitVec.ofNat 7 (toHex (digestPrefix s.D n)).length, hv := true }.Inv := by
  have hle := length_toHex_digestPrefix_le s.D n
  have hlen : (BitVec.ofNat 7 (toHex (digestPrefix s.D n)).length).toNat = (toHex (digestPrefix s.D n)).length := by
    rw [BitVec.toNat_ofNat]
    omega
  exact {
    hexoutLen_le := hlen.trans_le hle
    hexout_tail := fun c hc => by
      rw [getElem_hexoutImage, List.getElem?_eq_none (hlen ▸ hc), Option.getD_none]
    hv_renders := fun _ => ⟨n, h1, h160, rfl, hlen⟩
    dv_squeezed := hs.dv_squeezed
    count_zero := hs.count_zero
    pending_accepted := pendingAccepted_of_none hp }

theorem effectOf_keeps_inv {i : Instr} {s : State} (hs : s.Inv) (hp : s.pending = none)
    (ha : acceptError i s = none) : (effectOf i s).Inv := by
  cases i with
  | nop | adv _ | xorin _ | clrerr => exact hs.of_keepsComputed rfl (pendingAccepted_of_none hp)
  | init =>
    exact { hs with
      dv_squeezed := fun h => absurd h (by simp [effectOf])
      count_zero := fun _ => rfl
      pending_accepted := pendingAccepted_of_none hp }
  | sqz1 => exact hs.of_digestWrite _ _ hp
  | absb b last =>
    obtain ⟨S', h⟩ := effectOf_absb b last s
    exact h ▸ hs.of_absorb ha last S' _ hp
  | absy y last =>
    obtain ⟨S', h⟩ := effectOf_absy y last s
    exact h ▸ hs.of_absorb ha last S' _ hp
  | final =>
    obtain ⟨S', D', h⟩ := effectOf_final s
    rw [h]
    exact { hs with
      hv_renders := by simp
      dv_squeezed := fun _ => rfl
      count_zero := by simp
      pending_accepted := pendingAccepted_of_none hp }
  | tohex n =>
    obtain ⟨h1, h160⟩ := tohexError_eq_none_iff.1 ha
    exact hs.of_render h1 h160 hp
  | hexin => exact hs.of_digestWrite s.S _ hp

theorem exec_keeps_inv {i : Instr} {s t : State} (hs : s.Inv) (hp : s.pending = none) (h : exec i s = .next t) :
    t.Inv := by
  rcases exec_cases h with ⟨e, -, rfl⟩ | ⟨ha, rfl⟩
  · exact hs.of_keepsComputed rfl (pendingAccepted_of_none hp)
  · exact effectOf_keeps_inv hs hp ha

/-! ## The obligations about steps -/

/-- Settles O55: by whose turn the step is. The engine empties the pending register before it completes the command. -/
theorem stepKeepsInvariant : Obligations.StepKeepsInvariant := by
  intro s t hs h
  rcases step_cases s with ⟨-, hstep⟩ | ⟨w, -, hstep⟩ | ⟨w, d, hp, hstep⟩
  · exact hostTurn_keeps_inv hs (hstep ▸ h)
  · have hidle : { s with pending := none }.Inv := hs.of_keepsComputed rfl (pendingAccepted_of_none rfl)
    rw [hstep] at h
    rcases engineComplete_answers w { s with pending := none } with hbad | ⟨i, -, hi⟩
    · obtain rfl := Host.Outcome.next.inj (hbad.symm.trans h)
      exact hidle.of_keepsComputed rfl (pendingAccepted_of_none rfl)
    · exact exec_keeps_inv hidle rfl (hi ▸ h)
  · have hcounted : { s with pending := some ⟨w, d⟩ }.Inv := by
      refine hs.of_keepsComputed rfl fun p hp' => ?_
      obtain rfl := Option.some.inj hp'
      obtain ⟨i, hd, ha⟩ := hs.pending_accepted _ hp
      exact ⟨i, hd, (acceptError_congr rfl rfl rfl i).trans ha⟩
    exact hostTurn_keeps_inv hcounted (hstep ▸ h)

/-- Settles O56: the reset state is what the reset input leaves of it. -/
theorem resetHasInvariant : Obligations.ResetHasInvariant := inv_platformReset State.reset

/-- Settles O45: each register of `State.reset` as it stands, and the packed words of zeros. -/
theorem resetValues : Obligations.ResetValues := by
  refine ⟨rfl, rfl, ?_, rfl, ?_, rfl, rfl, rfl, rfl, rfl, rfl, rfl, rfl, ?_, ?_⟩
  · simp [State.reset]
  · simp [State.reset]
  · decide
  · decide

/-- Settles O49: with delay left the step is the host's turn on a busy block. -/
theorem pendingFreezesRegisters : Obligations.PendingFreezesRegisters := by
  intro s t p d hp hr h
  rw [step_of_pending_succ hp] at h
  have hb : { s with pending := some ⟨p, d⟩ }.busy = true := rfl
  obtain ⟨err, hostOps, replies, draws, herr, rfl⟩ := hostTurn_of_busy hb hr h
  exact ⟨rfl, firstError_busy_moves herr⟩

/-- Settles O57: a host turn moves PHASE by the reset input only, and a completion moves it as its command does
(`phaseMoves`). -/
theorem stepMovesPhase : Obligations.StepMovesPhase := by
  intro s t h hne
  by_cases hz : ∃ w, s.pending = some ⟨w, 0⟩
  · obtain ⟨w, hp⟩ := hz
    rw [step_of_pending_zero hp] at h
    rcases engineComplete_answers w { s with pending := none } with hbad | ⟨i, hd, hi⟩
    · obtain rfl := Host.Outcome.next.inj (hbad.symm.trans h)
      exact absurd rfl hne
    · exact .inr ⟨w, i, hp, hd, phaseMoves i { s with pending := none } t (hi ▸ h) hne⟩
  · rw [not_exists] at hz
    obtain ⟨p, hstep⟩ := step_eq_hostTurn hz
    rcases hostTurn_keepsComputed (hstep ▸ h) with ⟨rest, ho, rfl⟩ | hk
    · exact .inl ⟨rfl, ⟨rest, ho⟩, hz⟩
    · exact absurd hk.phase hne

end Sys2Proof.Machine
end

section
/-! PROOFS. An idle block's window: which register an offset names, and what a read returns and a write sets, bit by
bit. -/

namespace Sys2Proof.Machine

/-! ## An idle block's accesses (R58) -/

/-- An idle block's host turn on a read it answers. -/
theorem step_read_idle {s : State} {off : Nat} {rest : List HostOp} {r : WindowReg} (hp : s.pending = none)
    (ho : s.hostOps = .read (Config.base + off) 4 :: rest) (hlt : off < windowBytes) (hd : windowDecode off 4 = .ok r) :
    step s = .next { s with hostOps := rest, replies := (Config.base + off, readIdle r s) :: s.replies } := by
  have hb : { s with hostOps := rest }.busy = false := busy_of_none hp
  have hr : readIdle r { s with hostOps := rest } = readIdle r s := by cases r <;> rfl
  simp only [step_of_pending_none hp, hostTurn, ho, busDecode_base hlt, hd, readReg, hb, hr, Bool.false_eq_true,
    if_false]

/-- An idle block's host turn on a write it answers. -/
theorem step_write_idle {s : State} {off : Nat} {v : Word} {rest : List HostOp} {r : WindowReg} (hp : s.pending = none)
    (ho : s.hostOps = .write (Config.base + off) 4 v :: rest) (hlt : off < windowBytes)
    (hd : windowDecode off 4 = .ok r) : step s = .next (writeReg r v { s with hostOps := rest }) := by
  simp only [step_of_pending_none hp, hostTurn, ho, busDecode_base hlt, hd]

/-- An idle block stores what is written to it. -/
theorem unlessBusy_of_idle {s : State} (hp : s.pending = none) (t : State) : unlessBusy s t = t := by
  simp [unlessBusy, busy_of_none hp]

/-! ## The map's rows of several words (R51) -/

theorem windowDecode_state (w : Fin 6) : windowDecode (0x020 + 4 * w.val) 4 = .ok (.state w) := by
  revert w
  decide

theorem windowDecode_digest (w : Fin 5) : windowDecode (0x040 + 4 * w.val) 4 = .ok (.digest w) := by
  revert w
  decide

theorem windowDecode_hexout (w : Fin 10) : windowDecode (0x060 + 4 * w.val) 4 = .ok (.hexout w) := by
  revert w
  decide

theorem windowDecode_hexin (w : Fin 16) : windowDecode (0x0A0 + 4 * w.val) 4 = .ok (.hexin w) := by
  revert w
  decide

/-! ## The fields of the packed words (R29, R53 to R55) -/

/-- Concatenation as arithmetic. -/
theorem toNat_append_eq_add {m n : Nat} (x : BitVec m) (y : BitVec n) :
    (x ++ y).toNat = x.toNat * 2 ^ n + y.toNat := by
  rw [BitVec.toNat_append, ← Nat.shiftLeft_add_eq_or_of_lt y.isLt, Nat.shiftLeft_eq]

/-- STATUS as a number: each field at its place (R29). -/
theorem toNat_statusLayout (err : BitVec 4) (phase : BitVec 3) (hv dv busy : Bool) :
    (statusLayout err phase hv dv busy).toNat =
      busy.toNat + 2 * dv.toNat + 4 * hv.toNat + 16 * phase.toNat + 256 * err.toNat := by
  simp only [statusLayout, toNat_append_eq_add, BitVec.toNat_ofBool, BitVec.toNat_ofNat]
  omega

/-- STATUS while BUSY = 0, from the codes of PHASE and ERR (R28, R29, R241). -/
theorem toNat_statusIdle (s : State) :
    (statusIdle s).toNat =
      (if s.dv then 2 else 0) + (if s.hv then 4 else 0) + 16 * s.phase.code.toNat + 256 * s.err.code.toNat := by
  rw [statusIdle, toNat_statusLayout]
  cases s.dv <;> cases s.hv <;> simp

/-- BITCNT_LO and BITCNT_HI are the two halves of BITCNT. -/
theorem toNat_bitcntHalves (x : BitVec 64) :
    (x.extractLsb' 0 32).toNat = x.toNat % 2 ^ 32 ∧ (x.extractLsb' 32 32).toNat = x.toNat / 2 ^ 32 := by
  have := x.isLt
  simp only [BitVec.extractLsb'_toNat, Nat.shiftRight_eq_div_pow]
  omega

/-- A word's bit 31-j is its bit j from the most significant. -/
theorem getLsbD_eq_getMsbD_word (v : Word) {j : Nat} (hj : j < 32) : v.getLsbD (31 - j) = v.getMsbD j := by
  simp [BitVec.getMsbD, hj]

/-- The bits of S keep their indices in the six words, and the bits past S[160] are 0 (R53, R54). -/
theorem getMsbD_stateImage (S : SReg) (i : Nat) : (stateImage S).getMsbD i = S.getMsbD i := by
  rw [stateImage, BitVec.getMsbD_append]
  split
  · next h => simp [BitVec.getMsbD_of_ge S i h]
  · rfl

/-- Bit 31-j of STATEw is S[32w+j] (R53). -/
theorem getLsbD_readStateWord (S : SReg) (w : Fin 6) {j : Nat} (hj : j < 32) :
    (readStateWord S w).getLsbD (31 - j) = S.getMsbD (32 * w.val + j) := by
  rw [getLsbD_eq_getMsbD_word _ hj, readStateWord, getMsbD_packedWord 6 _ w j w.isLt hj, getMsbD_stateImage]

/-- Bit 31-j of DIGESTw is D[32w+j] (R53, R54). -/
theorem getLsbD_readDigestWord (D : DReg) (w : Fin 5) {j : Nat} (hj : j < 32) :
    (readDigestWord D w).getLsbD (31 - j) = D.getMsbD (32 * w.val + j) := by
  rw [getLsbD_eq_getMsbD_word _ hj, readDigestWord, getMsbD_packedWord 5 D w j w.isLt hj]

/-! ## The obligations about an idle block's window -/

/-- Settles O39: the read answers the register its offset names, and the packing lemmas say what that register's word
holds. -/
theorem idleReadsReturnRegisters : Obligations.IdleReadsReturnRegisters := by
  intro s off rest phase err hp ho hm hphase herr
  obtain ⟨r, hr⟩ := (windowDecode_ok_iff off 4).2 ⟨rfl, hm⟩
  have named {r' : WindowReg} (h : windowDecode off 4 = .ok r') : readIdle r s = readIdle r' s :=
    congrArg (readIdle · s) (Except.ok.inj (hr.symm.trans h))
  have hpcode : phase = s.phase.code.toNat := by rw [hphase]; cases s.phase <;> rfl
  have hecode : err = s.err.code.toNat := by rw [herr]; cases s.err <;> rfl
  refine ⟨readIdle r s, step_read_idle hp ho hm.lt_windowBytes hr, ?_, ?_, ?_, ?_, ?_, ?_, ?_, ?_, ?_, ?_⟩
  · rintro rfl
    exact named (r' := .cmd) rfl
  · rintro rfl
    rw [named (r' := .status) rfl, hpcode, hecode]
    exact toNat_statusIdle s
  · rintro rfl
    rw [named (r' := .bitcntLo) rfl]
    exact (toNat_bitcntHalves s.bitcnt).1
  · rintro rfl
    rw [named (r' := .bitcntHi) rfl]
    exact (toNat_bitcntHalves s.bitcnt).2
  · rintro rfl
    rw [named (r' := .hexoutLen) rfl]
    exact BitVec.toNat_setWidth_of_le (by decide)
  · rintro rfl
    exact named (r' := .hexinLen) rfl
  · rintro w rfl j hj
    rw [named (windowDecode_state w)]
    exact getLsbD_readStateWord s.S w hj
  · rintro w rfl j hj
    rw [named (windowDecode_digest w)]
    exact getLsbD_readDigestWord s.D w hj
  · rintro w b rfl
    rw [named (windowDecode_hexout w)]
    exact lane_readCharWord s.hexout w b b.isLt (by omega)
  · rintro w b rfl
    rw [named (windowDecode_hexin w)]
    exact lane_readCharWord s.hexin w b b.isLt (by omega)

/-- Settles O42: the write reaches the register its offset names, and an idle block stores it. -/
theorem hexinWritesSetCharacters : Obligations.HexinWritesSetCharacters := by
  intro s v rest hp
  have hstore (t : State) : unlessBusy { s with hostOps := rest } t = t :=
    unlessBusy_of_idle (show { s with hostOps := rest }.pending = none from hp) t
  refine ⟨fun w ho => ⟨{ s with hexin := writeCharWord s.hexin w v, hostOps := rest }, ?_, rfl, ?_, ?_⟩, fun ho => ?_⟩
  · rw [step_write_idle hp ho (by unfold windowBytes; omega) (windowDecode_hexin w), writeReg, hstore]
  · intro b
    have hb : 4 * w.val ≤ 4 * w.val + b.val ∧ 4 * w.val + b.val < 4 * w.val + 4 := by omega
    rw [getElem_writeCharWord, if_pos hb, Nat.add_sub_cancel_left, lane]
  · intro c hc
    have hout : ¬ (4 * w.val ≤ c.val ∧ c.val < 4 * w.val + 4) := by omega
    exact (getElem_writeCharWord s.hexin w v c.val c.isLt).trans (if_neg hout)
  · rw [step_write_idle hp ho (r := .hexinLen) (by decide) rfl, writeReg, hstore]

end Sys2Proof.Machine
end

section
/-! PROOFS. A busy block's window, what a write sets in S, and which steps answer. -/

namespace Sys2Proof.Machine

/-! ## A busy block's accesses (R59, R60) -/

/-- A busy block's host turn on a read it answers. -/
theorem step_read_busy {s : State} {p : Word} {d off : Nat} {rest : List HostOp} {r : WindowReg}
    (hp : s.pending = some ⟨p, d + 1⟩) (ho : s.hostOps = .read (Config.base + off) 4 :: rest)
    (hlt : off < windowBytes) (hd : windowDecode off 4 = .ok r) :
    step s = .next { s with
      pending := some ⟨p, d⟩, hostOps := rest,
      replies := (Config.base + off, readBusy r s (Config.freeWord s.draws)) :: s.replies, draws := s.draws + 1 } := by
  have hb : { s with pending := some ⟨p, d⟩, hostOps := rest }.busy = true := rfl
  have hr (free : Word) : readBusy r { s with pending := some ⟨p, d⟩, hostOps := rest } free = readBusy r s free := by
    cases r <;> rfl
  simp only [step_of_pending_succ hp, hostTurn, ho, busDecode_base hlt, hd, readReg, hb, hr, if_true]

/-- A busy block's host turn on a write it answers. -/
theorem step_write_busy {s : State} {p : Word} {d off : Nat} {v : Word} {rest : List HostOp} {r : WindowReg}
    (hp : s.pending = some ⟨p, d + 1⟩) (ho : s.hostOps = .write (Config.base + off) 4 v :: rest)
    (hlt : off < windowBytes) (hd : windowDecode off 4 = .ok r) :
    step s = .next (writeReg r v { s with pending := some ⟨p, d⟩, hostOps := rest }) := by
  simp only [step_of_pending_succ hp, hostTurn, ho, busDecode_base hlt, hd]

/-- The registers whose host writes are ignored (R57). -/
def WindowReg.readOnly : WindowReg → Bool
  | .status | .bitcntLo | .bitcntHi | .hexoutLen | .digest _ | .hexout _ => true
  | .cmd | .hexinLen | .state _ | .hexin _ => false

theorem writeReg_of_readOnly {r : WindowReg} (hr : r.readOnly = true) (v : Word) (s : State) : writeReg r v s = s := by
  cases r with
  | status | bitcntLo | bitcntHi | hexoutLen | digest _ | hexout _ => rfl
  | cmd | hexinLen | state _ | hexin _ => cases hr

/-- A busy block refuses a write to any other register (R59, R243). -/
theorem writeReg_of_busy_of_writable {r : WindowReg} (hr : r.readOnly = false) (v : Word) {s : State}
    (hb : s.busy = true) : writeReg r v s = raiseError .busy s := by
  cases r with
  | cmd | hexinLen | state _ | hexin _ => exact if_pos hb
  | status | bitcntLo | bitcntHi | hexoutLen | digest _ | hexout _ => cases hr

/-- The offsets R57 lists are those of read-only registers. -/
theorem windowDecode_readOnly {off : Nat}
    (h : off ∈ [0x004, 0x008, 0x00C, 0x010, 0x040, 0x044, 0x048, 0x04C, 0x050, 0x060, 0x064, 0x068, 0x06C, 0x070, 0x074,
      0x078, 0x07C, 0x080, 0x084]) : off < windowBytes ∧ ∃ r, windowDecode off 4 = .ok r ∧ r.readOnly = true := by
  have hrow : off < windowBytes ∧ (windowDecode off 4).toOption.any WindowReg.readOnly = true := by
    revert off
    decide
  obtain ⟨hlt, hany⟩ := hrow
  cases hd : windowDecode off 4 with
  | error f => simp [hd, Except.toOption] at hany
  | ok r => exact ⟨hlt, r, rfl, by simpa [hd, Except.toOption] using hany⟩

/-- The offsets R59 lists are those of the other registers. -/
theorem windowDecode_writable {off : Nat}
    (h : off = 0x000 ∨ off = 0x014 ∨ (∃ w : Fin 6, off = 0x020 + 4 * w.val) ∨ ∃ w : Fin 16, off = 0x0A0 + 4 * w.val) :
    off < windowBytes ∧ ∃ r, windowDecode off 4 = .ok r ∧ r.readOnly = false := by
  rcases h with rfl | rfl | ⟨w, rfl⟩ | ⟨w, rfl⟩
  · exact ⟨by decide, .cmd, rfl, rfl⟩
  · exact ⟨by decide, .hexinLen, rfl, rfl⟩
  · exact ⟨by unfold windowBytes; omega, .state w, windowDecode_state w, rfl⟩
  · exact ⟨by unfold windowBytes; omega, .hexin w, windowDecode_hexin w, rfl⟩

/-! ## STATUS while BUSY = 1, and S after a write (R53, R54, R60) -/

/-- STATUS has BUSY at bit 0, ERR from bit 8 up, and zeros at the reserved bits 3 and 7 (R29). -/
theorem statusLayout_fields (err : BitVec 4) (phase : BitVec 3) (hv dv busy : Bool) :
    (statusLayout err phase hv dv busy).getLsbD 0 = busy ∧
    (statusLayout err phase hv dv busy).toNat / 256 = err.toNat ∧
    (statusLayout err phase hv dv busy).getLsbD 3 = false ∧
    (statusLayout err phase hv dv busy).getLsbD 7 = false := by
  have hb := Bool.toNat_le busy
  have hd := Bool.toNat_le dv
  have hh := Bool.toNat_le hv
  have hp := phase.isLt
  simp only [BitVec.getLsbD, Nat.testBit_eq_decide_div_mod_eq, toNat_statusLayout]
  refine ⟨?_, by omega, decide_eq_false (by omega), decide_eq_false (by omega)⟩
  cases busy with
  | false => exact decide_eq_false (by rw [Bool.toNat_false]; omega)
  | true => exact decide_eq_true (by rw [Bool.toNat_true]; omega)

/-- Bit `i` of S after a write to STATEw: the written word's inside that word, the old one elsewhere (R53, R54). -/
theorem getMsbD_writeStateWord (S : SReg) (w : Fin 6) (v : Word) {i : Nat} (hi : i ≤ 160) :
    (writeStateWord S w v).getMsbD i =
      if 32 * w.val ≤ i ∧ i < 32 * w.val + 32 then v.getMsbD (i - 32 * w.val) else S.getMsbD i := by
  have htop (image : BitVec (32 * 6)) : (image.extractLsb' 31 161).getMsbD i = image.getMsbD i := by
    have h1 : 160 - i < 161 := by omega
    have h2 : i < 161 := by omega
    have h3 : i < 192 := by omega
    have h4 : 31 + (160 - i) = 191 - i := by omega
    simp [BitVec.getMsbD, h1, h2, h3, h4]
  rw [writeStateWord, htop, getMsbD_replaceWord 6 _ w v i w.isLt (by omega), getMsbD_stateImage]

/-! ## Which steps answer (R240, R248, R250) -/

/-- The engine's turn never stops a run. -/
theorem engineComplete_next (w : Word) (s : State) : ∃ t, engineComplete w s = .next t := by
  rcases engineComplete_answers w s with h | ⟨i, -, h⟩
  · exact ⟨_, h⟩
  · rw [h, exec_eq_checked]
    cases acceptError i s with
    | some e => exact ⟨_, checked_some e s _⟩
    | none => exact ⟨_, checked_none s _⟩

/-- The host's turn stops a run only with the bus's fault on the host's own access. -/
theorem hostTurn_next_or_fault (s : State) :
    (∃ t, hostTurn s = .next t) ∨
      ∃ addr width f, s.NextAccess addr width ∧ busDecode addr width = .error f ∧ hostTurn s = .fault f := by
  by_cases hacc : ∃ addr width, s.NextAccess addr width
  · obtain ⟨addr, width, ha⟩ := hacc
    cases hb : busDecode addr width with
    | ok r => exact .inl (hostTurn_of_busDecode_ok ha hb)
    | error f => exact .inr ⟨addr, width, f, ha, hb, hostTurn_of_busDecode_error ha hb⟩
  · left
    cases ho : s.hostOps with
    | nil => exact ⟨s, by simp only [hostTurn, ho]⟩
    | cons op rest =>
      cases op with
      | write addr width v => exact absurd ⟨addr, width, rest, .inl ⟨v, ho⟩⟩ hacc
      | read addr width => exact absurd ⟨addr, width, rest, .inr ho⟩ hacc
      | wait =>
        exact ⟨readReg (Config.base + 0x004) .status (if s.busy then s else { s with hostOps := rest }),
          by simp only [hostTurn, ho]⟩
      | reset => exact ⟨platformReset { s with hostOps := rest }, by simp only [hostTurn, ho]⟩

/-- What the bus's fault says of the access: outside the window, or inside it and no 4-byte access at a mapped offset
(R52, log 7). -/
theorem busDecode_error {addr width : Nat} {f : Fault} (h : busDecode addr width = .error f) :
    (f ≠ .outsideWindow ∧ ∃ off, addr = Config.base + off ∧ off < 256 ∧ ¬ (width = 4 ∧ MappedOffset off)) ∨
      (f = .outsideWindow ∧ (addr < Config.base ∨ Config.base + 256 ≤ addr)) := by
  rcases window_or_outside addr with ⟨off, hlt, rfl⟩ | hout
  · rw [busDecode_base hlt] at h
    refine .inl ⟨?_, off, rfl, hlt, fun hm => ?_⟩
    · rintro rfl
      exact windowDecode_ne_outsideWindow off width h
    · obtain ⟨r, hr⟩ := (windowDecode_ok_iff off width).2 hm
      exact absurd (h.symm.trans hr) (by simp)
  · exact .inr ⟨Except.error.inj (h.symm.trans (busDecode_outside hout)), hout⟩

/-! ## The obligations -/

/-- Settles O40: the read answers the register its offset names, with STATUS's fields as laid out and HEXIN and
HEXIN_LEN not taken from the free word. -/
theorem busyReadsExactParts : Obligations.BusyReadsExactParts := by
  intro s p d off rest err hp ho hm herr
  obtain ⟨r, hr⟩ := (windowDecode_ok_iff off 4).2 ⟨rfl, hm⟩
  have named {r' : WindowReg} (h : windowDecode off 4 = .ok r') (free : Word) :
      readBusy r s free = readBusy r' s free :=
    congrArg (readBusy · s free) (Except.ok.inj (hr.symm.trans h))
  have hecode : err = s.err.code.toNat := by rw [herr]; cases s.err <;> rfl
  refine ⟨_, _, step_read_busy hp ho hm.lt_windowBytes hr, ?_, ?_, ?_, ?_⟩
  · rintro rfl
    exact named (r' := .cmd) rfl _
  · rintro rfl
    rw [named (r' := .status) rfl, hecode]
    exact statusLayout_fields _ _ _ _ true
  · rintro rfl
    exact named (r' := .hexinLen) rfl _
  · rintro w b rfl
    rw [named (windowDecode_hexin w)]
    exact lane_readCharWord s.hexin w b b.isLt (by omega)

/-- Settles O41: an idle block stores the word, which `getMsbD_writeStateWord` gives bit by bit. -/
theorem stateWritesSetWord : Obligations.StateWritesSetWord := by
  intro s w v rest hp ho
  have hidle : { s with hostOps := rest }.pending = none := hp
  refine ⟨{ s with S := writeStateWord s.S w v, hostOps := rest }, ?_, rfl, fun j hj hle => ?_, fun i hi hout => ?_⟩
  · rw [step_write_idle hp ho (by unfold windowBytes; omega) (windowDecode_state w), writeReg, unlessBusy_of_idle hidle]
  · rw [getMsbD_writeStateWord s.S w v hle, if_pos (by omega), Nat.add_sub_cancel_left, getLsbD_eq_getMsbD_word v hj]
  · rw [getMsbD_writeStateWord s.S w v hi, if_neg (by omega)]

/-- Settles O43: the write reaches a read-only register, which ignores it. -/
theorem readOnlyWritesIgnored : Obligations.ReadOnlyWritesIgnored := by
  intro s off v rest ho hoff
  obtain ⟨hlt, r, hd, hr⟩ := windowDecode_readOnly hoff
  refine ⟨fun hp => ?_, fun p d hp => ?_⟩
  · rw [step_write_idle hp ho hlt hd, writeReg_of_readOnly hr]
  · rw [step_write_busy hp ho hlt hd, writeReg_of_readOnly hr]

/-- Settles O44: the write reaches a writable register of a busy block, which refuses it. -/
theorem busyWritesRefused : Obligations.BusyWritesRefused := by
  intro s p d off v rest hp ho hoff
  obtain ⟨hlt, r, hd, hr⟩ := windowDecode_writable hoff
  have hb : { s with pending := some ⟨p, d⟩, hostOps := rest }.busy = true := rfl
  rw [step_write_busy hp ho hlt hd, writeReg_of_busy_of_writable hr v hb, raiseError, firstError_eq_ite]

/-- Settles O51: the engine's turn answers, and the host's turn stops with the bus's fault on its own access only. -/
theorem stepAnswersUnlessBusError : Obligations.StepAnswersUnlessBusError := by
  intro s
  by_cases hz : ∃ w, s.pending = some ⟨w, 0⟩
  · obtain ⟨w, hp⟩ := hz
    rw [step_of_pending_zero hp]
    exact .inl (engineComplete_next w _)
  · rw [not_exists] at hz
    obtain ⟨p, hstep⟩ := step_eq_hostTurn hz
    rw [hstep]
    rcases hostTurn_next_or_fault { s with pending := p } with hnext | ⟨addr, width, f, ⟨rest, ha⟩, hb, hfault⟩
    · exact .inl hnext
    · exact .inr ⟨addr, width, rest, f, ha, hz, hfault, busDecode_error hb⟩

end Sys2Proof.Machine
end

section
/-! PROOFS. What a text of hex digits parses to: its value digit by digit, and the number of its first 40 digits. -/

namespace Sys2Proof.Machine

/-! ## One digit (R12, R181) -/

theorem hexVal?_of_digit {c : Byte} {v : Nat} (h : HexDigitValue c v) : hexVal? c = some (BitVec.ofNat 4 v) := by
  unfold hexVal?
  rcases h with ⟨h1, h2, rfl⟩ | ⟨h1, h2, rfl⟩ | ⟨h1, h2, rfl⟩
  · exact if_pos ⟨h1, h2⟩
  · exact (if_neg (by omega)).trans (if_pos ⟨h1, h2⟩)
  · exact (if_neg (by omega)).trans ((if_neg (by omega)).trans (if_pos ⟨h1, h2⟩))

theorem HexDigitValue.lt_sixteen {c : Byte} {v : Nat} (h : HexDigitValue c v) : v < 16 := by
  omega

theorem hexDigitBits_of_digit {c : Byte} {v : Nat} (h : HexDigitValue c v) :
    hexDigitBits c = msbBits (BitVec.ofNat 4 v) := by
  rw [hexDigitBits, hexVal?_of_digit h, Option.getD_some]

@[simp] theorem length_hexDigitBits (c : Byte) : (hexDigitBits c).length = 4 := msbBits_length _

/-! ## Packing as arithmetic (R23) -/

/-- Shifting a bit in at the tail doubles the number and adds the bit. -/
theorem shiftConcat_ofNat (n a : Nat) (b : Bool) :
    (BitVec.ofNat n a).shiftConcat b = BitVec.ofNat n (2 * a + b.toNat) := by
  apply BitVec.eq_of_toNat_eq
  simp only [BitVec.shiftConcat, BitVec.truncate_eq_setWidth, BitVec.toNat_setWidth, BitVec.toNat_concat,
    BitVec.toNat_ofNat, Nat.mul_comm 2 a]
  exact ((Nat.mod_modEq a (2 ^ n)).mul_right 2).add_right _

/-- Shifting a digit's four bits in multiplies by 16 and adds the digit. -/
theorem foldl_shiftConcat_msbBits_four (n a : Nat) (x : BitVec 4) :
    (msbBits x).foldl BitVec.shiftConcat (BitVec.ofNat n a) = BitVec.ofNat n (16 * a + x.toNat) := by
  have hbits : msbBits x = [x.getMsbD 0, x.getMsbD 1, x.getMsbD 2, x.getMsbD 3] := rfl
  have hx : x.toNat = 8 * (x.getMsbD 0).toNat + 4 * (x.getMsbD 1).toNat + 2 * (x.getMsbD 2).toNat +
      (x.getMsbD 3).toNat := by
    revert x
    decide
  simp only [hbits, List.foldl_cons, List.foldl_nil, shiftConcat_ofNat, hx]
  congr 1
  omega

/-- Shifting a text's digits in appends them to the number. -/
theorem foldl_shiftConcat_digits (n : Nat) {text : List Byte} {vs : List Nat}
    (h : List.Forall₂ HexDigitValue text vs) (a : Nat) :
    (text.flatMap hexDigitBits).foldl BitVec.shiftConcat (BitVec.ofNat n a) =
      BitVec.ofNat n (vs.foldl (fun n v => 16 * n + v) a) := by
  induction h generalizing a with
  | nil => rfl
  | cons hd _ ih =>
    rw [List.flatMap_cons, List.foldl_append, hexDigitBits_of_digit hd, foldl_shiftConcat_msbBits_four,
      BitVec.toNat_ofNat, Nat.mod_eq_of_lt hd.lt_sixteen, ih, List.foldl_cons]

/-! ## Cutting and padding to 40 digits (R181) -/

/-- The bits of the first `n` digits are the first `4 * n` bits. -/
theorem take_flatMap_hexDigitBits (text : List Byte) (n : Nat) :
    (text.flatMap hexDigitBits).take (4 * n) = (text.take n).flatMap hexDigitBits := by
  induction text generalizing n with
  | nil => simp
  | cons c rest ih =>
    cases n with
    | zero => simp
    | succ n =>
      have hcut : 4 * (n + 1) - (hexDigitBits c).length = 4 * n := by rw [length_hexDigitBits]; omega
      have hfit : (hexDigitBits c).length ≤ 4 * (n + 1) := by rw [length_hexDigitBits]; omega
      rw [List.flatMap_cons, List.take_append, List.take_of_length_le hfit, hcut, ih, List.take_succ_cons,
        List.flatMap_cons]

/-- Padding to 40 digits leaves the first 40 digits in place, behind the padding. -/
theorem take_pad {α : Type} (x : α) (l : List α) :
    (List.replicate (40 - l.length) x ++ l).take 40 = List.replicate (40 - l.length) x ++ l.take 40 := by
  rw [List.take_append, List.take_of_length_le (by rw [List.length_replicate]; omega), List.length_replicate,
    List.append_cancel_left_eq, List.take_eq_take_iff]
  omega

theorem hexDigitValues_replicate {c : Byte} {v : Nat} (h : HexDigitValue c v) (n : Nat) :
    List.Forall₂ HexDigitValue (List.replicate n c) (List.replicate n v) := by
  induction n with
  | zero => exact .nil
  | succ n ih => exact .cons h ih

/-- Leading zeros do not change the number. -/
theorem foldl_digits_replicate_zero (n : Nat) : (List.replicate n 0).foldl (fun n v => 16 * n + v) 0 = 0 := by
  induction n with
  | zero => rfl
  | succ n ih => exact ih

/-- What HEXIN stores in D: the number of the text's first 40 digits, after the optional prefix (R181, R183). -/
theorem ofMsbBits_hexToBits160 {text : List Byte} {vs : List Nat}
    (h : List.Forall₂ HexDigitValue (stripHexPrefix text) vs) :
    ofMsbBits 160 (hexToBits160 text) = BitVec.ofNat 160 ((vs.take 40).foldl (fun n v => 16 * n + v) 0) := by
  have hpad := hexDigitValues_replicate (c := 0x30#8) (v := 0) (by decide) (40 - vs.length)
  rw [ofMsbBits, hexToBits160, show digestBitCount = 4 * 40 from rfl, take_flatMap_hexDigitBits, take_pad, h.length_eq,
    foldl_shiftConcat_digits 160 (List.rel_append hpad (List.forall₂_take 40 h)), List.foldl_append,
    foldl_digits_replicate_zero]

/-! ## HEXIN of a text of digits (R181, R183, R246, R247) -/

/-- A text of hex digits has no prefix to strip: x and X are no digits. -/
theorem stripHexPrefix_of_digits {text : List Byte} {vs : List Nat} (h : List.Forall₂ HexDigitValue text vs) :
    stripHexPrefix text = text := by
  rcases h with _ | ⟨-, _ | ⟨hd, -⟩⟩
  · rfl
  · rfl
  · refine if_neg fun ⟨_, hx⟩ => ?_
    rcases hx with rfl | rfl <;> simp [HexDigitValue] at hd

theorem all_isSome_hexVal?_of_digits {text : List Byte} {vs : List Nat} (h : List.Forall₂ HexDigitValue text vs) :
    (text.all fun c => (hexVal? c).isSome) = true := by
  induction h with
  | nil => rfl
  | cons hd _ ih => simp [hexVal?_of_digit hd, ih]

/-- HEXIN accepts at most 64 characters that are hex digits after the optional prefix. -/
theorem hexinError_of_digits {s : State} {vs : List Nat} (hlen : s.hexinLen.toNat ≤ 64)
    (h : List.Forall₂ HexDigitValue (stripHexPrefix (hexinText s)) vs) : hexinError s = none := by
  have hshort : ¬ hexinMax < s.hexinLen.toNat := Nat.not_lt.2 hlen
  rw [hexinError, if_neg hshort, if_pos (all_isSome_hexVal?_of_digits h)]

/-- What an accepted HEXIN of digits writes (R183). -/
theorem effectOf_hexin_of_digits {s : State} {vs : List Nat}
    (h : List.Forall₂ HexDigitValue (stripHexPrefix (hexinText s)) vs) :
    effectOf .hexin s =
      { s with D := BitVec.ofNat 160 ((vs.take 40).foldl (fun n v => 16 * n + v) 0), dv := false, hv := false } := by
  rw [effectOf, ofMsbBits_hexToBits160 h]

end Sys2Proof.Machine
end

section
/-! PROOFS. A command line's run, from its CMD write through any latency to the poll that ends it, and LOADHEX. -/

namespace Sys2Proof.Machine

/-! ## Runs in parts -/

/-- A run goes on from where its first part stopped. -/
theorem runSteps_add {m n : Nat} {s t : State} (h : runSteps m s = .next t) : runSteps (m + n) s = runSteps n t := by
  induction m generalizing s with
  | zero => rw [Nat.zero_add, ← Host.Outcome.next.inj h]
  | succ m ih =>
    rw [Nat.add_right_comm]
    cases hs : step s with
    | next u =>
      rw [runSteps_of_next hs] at h ⊢
      exact ih h
    | fault f => simp [runSteps_of_fault hs] at h
    | refused r => simp [runSteps, hs] at h

theorem runSteps_one {s t : State} (h : step s = .next t) : runSteps 1 s = .next t := runSteps_of_next h

/-- A run whose last access is a WAIT that finds the block idle ends there (R289). -/
theorem runEnds_wait {n : Nat} {s t : State} (h : runSteps n s = .next t) (hp : t.pending = none)
    (ho : t.hostOps = [.wait]) :
    RunEnds s (n + 1)
      { t with hostOps := [], replies := (Config.base + 0x004, statusIdle t) :: t.replies } where
  run := (runSteps_add h).trans (runSteps_one (step_wait_quiet hp ho))
  issued := rfl
  completed := hp
  polled := ⟨n, t, _, Nat.lt_succ_self n, h, pollsIdle_wait hp ho, by simp⟩

/-! ## A command line (R92, R283) -/

/-- While the host waits, a pending command's delay runs out and the engine completes it, whatever the latency. -/
theorem runSteps_pending {s : State} {w : Word} {d : Nat} {rest : List HostOp} (hp : s.pending = some ⟨w, d⟩)
    (ho : s.hostOps = .wait :: rest) :
    ∃ replies draws t, engineComplete w { s with pending := none, replies := replies, draws := draws } = .next t ∧
      runSteps (d + 1) s = .next t := by
  induction d generalizing s with
  | zero =>
    obtain ⟨t, ht⟩ := engineComplete_next w { s with pending := none }
    exact ⟨s.replies, s.draws, t, ht, runSteps_one ((step_of_pending_zero hp).trans ht)⟩
  | succ d ih =>
    obtain ⟨replies, draws, hstep⟩ := step_wait_busy hp ho
    obtain ⟨replies', draws', t, ht, hrun⟩ :=
      ih (s := { s with pending := some ⟨w, d⟩, replies := replies, draws := draws }) rfl ho
    exact ⟨replies', draws', t, ht, (runSteps_of_next hstep).trans hrun⟩

/-- A CMD write of an accepted command makes its word pending and changes nothing else of the block. -/
theorem step_write_cmd_accepted {s : State} {i : Instr} {rest : List HostOp} (hp : s.pending = none)
    (ho : s.hostOps = .write (Config.base + 0x000) 4 (encode i) :: rest) (hd : decode (encode i) = .ok i)
    (ha : acceptError i s = none) :
    step s = .next { s with
      hostOps := rest, pending := some ⟨encode i, Config.latency s.draws⟩, draws := s.draws + 1 } := by
  have hacc : acceptError i { s with hostOps := rest } = none := (acceptError_congr rfl rfl rfl i).trans ha
  have hidle : { s with hostOps := rest }.busy = false := busy_of_none hp
  simp only [step_write_cmd hp ho, presentCommand, hidle, hd, hacc, Bool.false_eq_true, if_false]

/-- A command line whose word decodes and is accepted has the command's whole effect by the time only its WAIT is
left. -/
theorem runSteps_commandLine {s : State} {i : Instr} {rest : List HostOp} (hp : s.pending = none)
    (ho : s.hostOps = commandLine i ++ rest) (hd : decode (encode i) = .ok i) (ha : acceptError i s = none) :
    ∃ n replies draws, runSteps n s = .next (effectOf i { s with
      pending := none, hostOps := .wait :: rest, replies := replies, draws := draws }) := by
  have hpresent := step_write_cmd_accepted (rest := .wait :: rest) hp ho hd ha
  obtain ⟨replies, draws, t, ht, hrun⟩ := runSteps_pending (s := { s with
      hostOps := .wait :: rest, pending := some ⟨encode i, Config.latency s.draws⟩, draws := s.draws + 1 }) rfl rfl
  have hacc : acceptError i { s with
      pending := none, hostOps := .wait :: rest, replies := replies, draws := draws } = none :=
    (acceptError_congr rfl rfl rfl i).trans ha
  have heffect := (engineComplete_of_decode_ok hd _).trans (exec_of_accepted hacc)
  exact ⟨_, replies, draws, (runSteps_of_next hpresent).trans (hrun.trans (ht.symm.trans heffect))⟩

/-! ## A text through the HEXIN window (R55, R93) -/

/-- LOADHEX's write of word `w` of the text. -/
def hexinWrite (text : List Byte) (w : Nat) : HostOp := .write (Config.base + (0x0A0 + 4 * w)) 4 (textWord text w)

/-- The buffer after the text's words `ws` were written to it, in that order. -/
def storeWords (text : List Byte) (ws : List Nat) (buf : Vector Byte 64) : Vector Byte 64 :=
  ws.foldl (fun buf w => writeCharWord buf w (textWord text w)) buf

theorem loadhex_eq (text : List Byte) :
    loadhex text = (List.range ((text.length + 3) / 4)).map (hexinWrite text) ++
      .write (Config.base + 0x014) 4 (BitVec.ofNat 32 text.length) :: commandLine .hexin := rfl

/-- An idle block stores the words one step each. -/
theorem runSteps_hexinWrites {text : List Byte} {ws : List Nat} {s : State} {rest : List HostOp}
    (hws : ∀ w ∈ ws, w < 16) (hp : s.pending = none) (ho : s.hostOps = ws.map (hexinWrite text) ++ rest) :
    runSteps ws.length s = .next { s with hexin := storeWords text ws s.hexin, hostOps := rest } := by
  induction ws generalizing s with
  | nil => rw [← show s.hostOps = rest from ho]; rfl
  | cons w ws ih =>
    obtain ⟨hw, hws⟩ := List.forall_mem_cons.1 hws
    have hstep := step_write_idle hp ho (by unfold windowBytes; omega) (windowDecode_hexin ⟨w, hw⟩)
    rw [writeReg, unlessBusy_of_idle (by exact hp)] at hstep
    exact (runSteps_of_next hstep).trans (ih hws hp rfl)

/-- Lane `b` of a text's word is its character 4w+b. -/
theorem lane_textWord (text : List Byte) (w : Nat) {b : Nat} (hb : b < 4) :
    lane (textWord text w) b = text[4 * w + b]?.getD 0 := by
  obtain ⟨h0, h1, h2, h3⟩ := lane_append (text[4 * w + 3]?.getD 0) (text[4 * w + 2]?.getD 0)
    (text[4 * w + 1]?.getD 0) (text[4 * w + 0]?.getD 0)
  obtain rfl | rfl | rfl | rfl : b = 0 ∨ b = 1 ∨ b = 2 ∨ b = 3 := by omega
  · exact h0
  · exact h1
  · exact h2
  · exact h3

/-- The text's first `n` words put its characters at their own indices. -/
theorem getElem_storeWords_range (text : List Byte) (n : Nat) (buf : Vector Byte 64) {c : Nat} (hc : c < 64)
    (hn : c < 4 * n) : (storeWords text (List.range n) buf)[c] = text[c]?.getD 0 := by
  induction n with
  | zero => omega
  | succ n ih =>
    have hlast : storeWords text (List.range (n + 1)) buf =
        writeCharWord (storeWords text (List.range n) buf) n (textWord text n) := by
      simp [storeWords, List.range_succ]
    rw [hlast, getElem_writeCharWord]
    split
    · next h => rw [lane_textWord text n (by omega), Nat.add_sub_of_le h.1]
    · next h => exact ih (by omega)

/-- The text's words, enough for its length, put every character of it in the buffer. -/
theorem getElem_storeWords_text {text : List Byte} (buf : Vector Byte 64) {c : Nat} (hc : c < 64)
    (h : c < text.length) : (storeWords text (List.range ((text.length + 3) / 4)) buf)[c] = text[c] := by
  rw [getElem_storeWords_range text _ buf hc (by omega), List.getElem?_eq_getElem h, Option.getD_some]

/-- HEXIN's text is what the buffer holds below the length (R183). -/
theorem hexinText_eq {s : State} {text : List Byte} (hlen : text.length ≤ 64) (hL : s.hexinLen.toNat = text.length)
    (hbuf : ∀ c : Fin 64, ∀ h : c.val < text.length, s.hexin[c] = text[c.val]) : hexinText s = text := by
  rw [hexinText, hL]
  apply List.ext_getElem
  · simpa using hlen
  · intro c h1 h2
    rw [List.getElem_take]
    exact hbuf ⟨c, by omega⟩ h2

/-! ## The obligation -/

/-- The block when LOADHEX has stored the text and its length, the host's next accesses being `ops`. -/
def State.withText (s : State) (text : List Byte) (ops : List HostOp) : State :=
  { s with
    hexin := storeWords text (List.range ((text.length + 3) / 4)) s.hexin
    hexinLen := BitVec.ofNat 32 text.length
    hostOps := ops }

/-- LOADHEX's stores, one step each, leave its command line to do. -/
theorem runSteps_loadhex_stores {s : State} {text : List Byte} (hlen : text.length ≤ 64) (hp : s.pending = none)
    (ho : s.hostOps = loadhex text) :
    ∃ n, runSteps n s = .next (s.withText text (commandLine .hexin)) := by
  have hws : ∀ w ∈ List.range ((text.length + 3) / 4), w < 16 := fun w hw => by
    have := List.mem_range.1 hw
    omega
  have hchars := runSteps_hexinWrites hws hp (ho.trans (loadhex_eq text))
  have hlenStep := step_write_idle (s := { s with
      hexin := storeWords text (List.range ((text.length + 3) / 4)) s.hexin
      hostOps := .write (Config.base + 0x014) 4 (BitVec.ofNat 32 text.length) :: commandLine .hexin })
    hp rfl (r := .hexinLen) (by decide) rfl
  rw [writeReg, unlessBusy_of_idle (by exact hp)] at hlenStep
  exact ⟨_, (runSteps_add hchars).trans (runSteps_one hlenStep)⟩

/-- Settles O53: the stores, then HEXIN's command line on the stored text, then its WAIT. -/
theorem loadhexProgramParsesText : Obligations.LoadhexProgramParsesText := by
  intro text vs s hlen hdigits hp ho
  have hbuf (c : Fin 64) (h : c.val < text.length) : (s.withText text (commandLine .hexin)).hexin[c] = text[c.val] :=
    getElem_storeWords_text s.hexin c.isLt h
  have hL : (s.withText text (commandLine .hexin)).hexinLen.toNat = text.length := by
    rw [State.withText, BitVec.toNat_ofNat]
    omega
  have hstrip : List.Forall₂ HexDigitValue (stripHexPrefix (hexinText (s.withText text (commandLine .hexin)))) vs := by
    rwa [hexinText_eq hlen hL hbuf, stripHexPrefix_of_digits hdigits]
  obtain ⟨m, hstores⟩ := runSteps_loadhex_stores hlen hp ho
  obtain ⟨n, replies, draws, hcommand⟩ := runSteps_commandLine (s := s.withText text (commandLine .hexin)) (rest := [])
    hp rfl (by decide) (hexinError_of_digits (hL.trans_le hlen) hstrip)
  have heffect := effectOf_hexin_of_digits (s := { s.withText text [.wait] with
      pending := none, replies := replies, draws := draws }) hstrip
  have hrun := (runSteps_add hstores).trans (hcommand.trans (congrArg _ heffect))
  exact ⟨_, _, runEnds_wait hrun rfl rfl, by rw [hp]; rfl, hbuf⟩

end Sys2Proof.Machine
end

section
/-! PROOFS. The opcode map, the must-be-zero bits and the operand fields as numbers, and what `decode` answers by them. -/

namespace Sys2Proof

/-! ## The formats' masks as numbers (R81 to R86) -/

/-- How many low bits of a word a format leaves to its operands; every bit between them and OPC is must-be-zero. -/
def Format.operandBits : Format → Nat
  | .N => 0
  | .R => 24
  | .X => 1
  | .A => 2
  | .Y => 9
  | .L => 8

theorem Format.mask_eq (f : Format) : f.mask = BitVec.allOnes 32 <<< f.operandBits := by
  cases f <;> rfl

/-- Masking the low `k` bits away rounds down to a multiple of 2^k. -/
theorem toNat_and_allOnes_shiftLeft (w : Word) (k : Nat) :
    (w &&& (BitVec.allOnes 32 <<< k)).toNat = w.toNat / 2 ^ k * 2 ^ k := by
  have h : w &&& (BitVec.allOnes 32 <<< k) = (w >>> k) <<< k := by
    ext i hi
    by_cases hik : i < k
    · simp [hik]
    · have hmask := Machine.getElem_wordMask (i - k) (by omega)
      have hi' : k + (i - k) = i := by omega
      simp [hik, hmask, hi', BitVec.getLsbD_eq_getElem, hi]
  rw [h, BitVec.toNat_shiftLeft, BitVec.toNat_ushiftRight, Nat.shiftRight_eq_div_pow, Nat.shiftLeft_eq]
  exact Nat.mod_eq_of_lt ((Nat.div_mul_le_self _ _).trans_lt w.isLt)

theorem Opcode.toNat_matchWord (op : Opcode) : op.matchWord.toNat = op.opc.toNat * 2 ^ 24 := by
  cases op <;> rfl

/-- A word with a row's OPC passes the row's `(w AND mask) = match` test when w[23:0] has operand bits only (R89). -/
theorem and_mask_eq_iff {w : Word} {op : Opcode} (h : op.opc.toNat = w.toNat / 2 ^ 24) :
    w &&& op.format.mask = op.matchWord ↔ w.toNat % 2 ^ 24 < 2 ^ op.format.operandBits := by
  rw [← BitVec.toNat_inj, Opcode.toNat_matchWord, Format.mask_eq, toNat_and_allOnes_shiftLeft, h]
  cases op.format <;> (rw [Format.operandBits]; omega)

/-! ## The opcode map (R87) -/

theorem Opcode.mem_all (op : Opcode) : op ∈ Opcode.all := by
  cases op <;> decide

/-- A property of some row, row by row. -/
theorem Opcode.exists_iff {p : Opcode → Prop} :
    (∃ op, p op) ↔ p .NOP ∨ p .INIT ∨ p .ADV ∨ p .XORIN ∨ p .SQZ1 ∨ p .ABSB ∨ p .ABSY ∨ p .FINAL ∨ p .TOHEX ∨
      p .HEXIN ∨ p .CLRERR := by
  have hall : (∃ op, p op) ↔ ∃ op ∈ Opcode.all, p op :=
    ⟨fun ⟨op, h⟩ => ⟨op, op.mem_all, h⟩, fun ⟨op, _, h⟩ => ⟨op, h⟩⟩
  simpa [Opcode.all] using hall

/-- The OPC values of the map. -/
theorem Opcode.exists_opc_iff {n : Nat} : (∃ op : Opcode, op.opc.toNat = n) ↔
    n ≤ 0x04 ∨ (0x10 ≤ n ∧ n ≤ 0x12) ∨ n = 0x20 ∨ n = 0x21 ∨ n = 0x30 := by
  simp only [Opcode.exists_iff, Opcode.opc, BitVec.ofNat_eq_ofNat, BitVec.toNat_ofNat]
  omega

theorem Opcode.ofOpc_opc (op : Opcode) : Opcode.ofOpc op.opc = some op := by
  cases op <;> rfl

theorem Opcode.ofOpc_eq_some_iff {opc : BitVec 8} {op : Opcode} : Opcode.ofOpc opc = some op ↔ op.opc = opc := by
  constructor
  · intro h
    simpa using List.find?_some h
  · rintro rfl
    exact op.ofOpc_opc

/-! ## What `decode` answers (R87 to R89) -/

theorem toNat_opcField (w : Word) : (opcField w).toNat = w.toNat / 2 ^ 24 := by
  rw [opcField, BitVec.extractLsb'_toNat, Nat.shiftRight_eq_div_pow]
  omega

/-- A word with a row's OPC is the row's command, or malformed by a bit past the row's operands. -/
theorem decode_of_opc {w : Word} {op : Opcode} (h : op.opc.toNat = w.toNat / 2 ^ 24) :
    decode w = if w.toNat % 2 ^ 24 < 2 ^ op.format.operandBits then .ok (op.assemble w) else .error .malformed := by
  have hopc : op.opc = opcField w := by rw [← BitVec.toNat_inj, toNat_opcField, h]
  simp only [decode, Opcode.ofOpc_eq_some_iff.2 hopc, and_mask_eq_iff h]

theorem decode_of_no_opc {w : Word} (h : ¬ ∃ op : Opcode, op.opc.toNat = w.toNat / 2 ^ 24) :
    decode w = .error .reservedOpcode := by
  have hnone : Opcode.ofOpc (opcField w) = none := by
    refine Option.eq_none_iff_forall_ne_some.2 fun op hop => h ⟨op, ?_⟩
    rw [Opcode.ofOpc_eq_some_iff.1 hop, toNat_opcField]
  simp only [decode, hnone]

/-- A word that is not rejected for its opcode has the OPC of a row. -/
theorem exists_opc_of_decode_ne {w : Word} (h : decode w ≠ .error .reservedOpcode) :
    ∃ op : Opcode, op.opc.toNat = w.toNat / 2 ^ 24 :=
  not_imp_comm.1 decode_of_no_opc h

theorem decode_eq_reserved_iff {w : Word} :
    decode w = .error .reservedOpcode ↔ ¬ ∃ op : Opcode, op.opc.toNat = w.toNat / 2 ^ 24 := by
  refine ⟨?_, decode_of_no_opc⟩
  rintro h ⟨op, hop⟩
  rw [decode_of_opc hop] at h
  split at h <;> cases h

theorem decode_eq_malformed_iff {w : Word} :
    decode w = .error .malformed ↔
      ∃ op : Opcode, op.opc.toNat = w.toNat / 2 ^ 24 ∧ 2 ^ op.format.operandBits ≤ w.toNat % 2 ^ 24 := by
  constructor
  · intro h
    obtain ⟨op, hop⟩ := exists_opc_of_decode_ne (w := w) (by simp [h])
    rw [decode_of_opc hop] at h
    split at h
    · cases h
    · next hlow => exact ⟨op, hop, Nat.le_of_not_lt hlow⟩
  · rintro ⟨op, hop, hlow⟩
    rw [decode_of_opc hop, if_neg (Nat.not_lt.2 hlow)]

/-- A word that decodes has the OPC of a row and no other bits than the row's operands, and is the row's command. -/
theorem row_of_decode_ok {w : Word} {i : Instr} (h : decode w = .ok i) :
    ∃ op : Opcode, op.opc.toNat = w.toNat / 2 ^ 24 ∧ w.toNat % 2 ^ 24 < 2 ^ op.format.operandBits ∧
      i = op.assemble w := by
  obtain ⟨op, hop⟩ := exists_opc_of_decode_ne (w := w) (by simp [h])
  rw [decode_of_opc hop] at h
  split at h
  · next hlow => exact ⟨op, hop, hlow, (Except.ok.inj h).symm⟩
  · cases h

/-! ## The operand fields as numbers (R82 to R86, R91) -/

theorem roundsField_eq (w : Word) : roundsField w = w.toNat % 2 ^ 24 := by
  rw [roundsField, BitVec.extractLsb'_toNat, Nat.shiftRight_zero]

theorem nbitsField_eq (w : Word) : nbitsField w = w.toNat % 2 ^ 8 := by
  rw [nbitsField, BitVec.extractLsb'_toNat, Nat.shiftRight_zero]

theorem toNat_byteField (w : Word) : (byteField w).toNat = w.toNat % 2 ^ 8 := nbitsField_eq w

theorem toNat_bitField (w : Word) : (bitField w).toNat = w.toNat / 2 ^ 0 % 2 := Nat.toNat_testBit w.toNat 0

theorem toNat_lastFieldA (w : Word) : (lastFieldA w).toNat = w.toNat / 2 ^ 1 % 2 := Nat.toNat_testBit w.toNat 1

theorem toNat_lastFieldY (w : Word) : (lastFieldY w).toNat = w.toNat / 2 ^ 8 % 2 := Nat.toNat_testBit w.toNat 8

/-! ## The command the decoder assembles -/

theorem opcode_assemble (op : Opcode) (w : Word) : (op.assemble w).opcode = op := by
  cases op <;> rfl

theorem wellFormed_assemble (op : Opcode) (w : Word) : (op.assemble w).WellFormed := by
  cases op with
  | ADV => exact decide_eq_true (w.extractLsb' 0 24).isLt
  | TOHEX => exact decide_eq_true (w.extractLsb' 0 8).isLt
  | NOP | INIT | XORIN | SQZ1 | ABSB | ABSY | FINAL | HEXIN | CLRERR => rfl

/-- The operand fields of a row hold all of w[23:0] when every bit past the row's operands is 0 (R89). -/
theorem toNat_operands_assemble {w : Word} {op : Opcode} (h : w.toNat % 2 ^ 24 < 2 ^ op.format.operandBits) :
    (op.assemble w).operands.toNat = w.toNat % 2 ^ 24 := by
  cases op with
  | ADV => rw [Opcode.assemble, Instr.operands, BitVec.toNat_ofNat, roundsField_eq, Nat.mod_mod]
  | XORIN | ABSB | ABSY | TOHEX =>
    simp only [Opcode.format, Format.operandBits] at h
    simp only [Opcode.assemble, Instr.operands, Machine.toNat_append_eq_add, BitVec.toNat_ofBool, BitVec.toNat_ofNat,
      toNat_bitField, toNat_lastFieldA, toNat_lastFieldY, toNat_byteField, nbitsField_eq]
    omega
  | NOP | INIT | SQZ1 | FINAL | HEXIN | CLRERR => exact (Nat.lt_one_iff.1 h).symm

/-- A decoded command's operands are its row's fields of the word. -/
theorem assemble_of_decode_ok {w : Word} {i : Instr} (h : decode w = .ok i) : i.opcode.assemble w = i := by
  obtain ⟨op, -, -, rfl⟩ := row_of_decode_ok h
  rw [opcode_assemble]

/-! ## The word the encoder writes (R80, R92) -/

theorem toNat_encode (i : Instr) : (encode i).toNat = i.opcode.opc.toNat * 2 ^ 24 + i.operands.toNat :=
  Machine.toNat_append_eq_add _ _

theorem opc_encode (i : Instr) : i.opcode.opc.toNat = (encode i).toNat / 2 ^ 24 := by
  have := i.operands.isLt
  rw [toNat_encode]
  omega

theorem encode_selectsRow : ∀ i : Instr, Laws.EncodeSelectsRow.Statement i
  | .nop => Laws.EncodeSelectsRow.nop
  | .init => Laws.EncodeSelectsRow.init
  | .adv rounds => Laws.EncodeSelectsRow.adv rounds
  | .xorin bit => Laws.EncodeSelectsRow.xorin bit
  | .sqz1 => Laws.EncodeSelectsRow.sqz1
  | .absb bit last => Laws.EncodeSelectsRow.absb bit last
  | .absy byte last => Laws.EncodeSelectsRow.absy byte last
  | .final => Laws.EncodeSelectsRow.final
  | .tohex nbits => Laws.EncodeSelectsRow.tohex nbits
  | .hexin => Laws.EncodeSelectsRow.hexin
  | .clrerr => Laws.EncodeSelectsRow.clrerr

/-- The low byte of the operands is the word's. -/
theorem byteField_append (opc : BitVec 8) (high : BitVec 16) (low : Byte) :
    byteField (opc ++ (high ++ low : BitVec 24)) = low :=
  (BitVec.extractLsb'_append_eq_of_add_le (by decide)).trans BitVec.extractLsb'_append_eq_right

/-- A command's row reads the command's operands out of its word; the counts need to fit their fields. -/
theorem assemble_encode {i : Instr} (h : i.WellFormed) : i.opcode.assemble (encode i) = i := by
  cases i with
  | adv rounds =>
    have hfield : (encode (.adv rounds)).extractLsb' 0 24 = BitVec.ofNat 24 rounds := BitVec.extractLsb'_append_eq_right
    have hlt : rounds < 2 ^ 24 := of_decide_eq_true h
    rw [Instr.opcode, Opcode.assemble, roundsField, hfield, BitVec.toNat_ofNat, Nat.mod_eq_of_lt hlt]
  | tohex nbits =>
    have hfield : byteField (encode (.tohex nbits)) = BitVec.ofNat 8 nbits := byteField_append _ _ _
    have hlt : nbits < 2 ^ 8 := of_decide_eq_true h
    rw [Instr.opcode, Opcode.assemble, nbitsField, ← byteField, hfield, BitVec.toNat_ofNat, Nat.mod_eq_of_lt hlt]
  | absy byte last =>
    have hbyte : byteField (encode (.absy byte last)) = byte := byteField_append _ _ _
    have hlast : lastFieldY (encode (.absy byte last)) = last := by
      rw [lastFieldY, encode, Instr.operands]
      simp only [BitVec.getLsbD_append]
      cases last <;> rfl
    rw [Instr.opcode, Opcode.assemble, hbyte, hlast]
  | xorin bit => cases bit <;> rfl
  | absb bit last => cases bit <;> cases last <;> rfl
  | nop | init | sqz1 | final | hexin | clrerr => rfl

end Sys2Proof
end

section
/-! PROOFS. The encoding's obligations: the two round trips, the operand fields, and the words that are no command. -/

namespace Sys2Proof.Machine

/-- Settles O2: the word selects its command's row, and the row's fields give the operands back. -/
theorem decodeEncodeRoundTrip : Obligations.DecodeEncodeRoundTrip := by
  intro i h
  have hopc := opc_encode i
  rw [decode_of_opc hopc, if_pos ((and_mask_eq_iff hopc).1 (encode_selectsRow i)), assemble_encode h]

/-- Settles O3: OPC and the operands of its row are all of a word that decodes. -/
theorem encodeDecodeRoundTrip : Obligations.EncodeDecodeRoundTrip := by
  intro w i h
  obtain ⟨op, hopc, hlow, rfl⟩ := row_of_decode_ok h
  refine ⟨wellFormed_assemble op w, BitVec.eq_of_toNat_eq ?_⟩
  rw [toNat_encode, opcode_assemble, toNat_operands_assemble hlow, hopc]
  omega

/-- Settles O4: a decoded command is what its row assembles from the word's fields. -/
theorem operandFieldsOfWord : Obligations.OperandFieldsOfWord := by
  intro w
  refine ⟨fun r h => ?_, fun b h => ?_, fun b l h => ?_, fun y l h => ?_, fun n h => ?_⟩
  · obtain rfl : roundsField w = r := Instr.adv.inj (assemble_of_decode_ok h)
    exact roundsField_eq w
  · exact (Instr.xorin.inj (assemble_of_decode_ok h)).symm
  · obtain ⟨hb, hl⟩ := Instr.absb.inj (assemble_of_decode_ok h)
    exact ⟨hb.symm, hl.symm⟩
  · obtain ⟨rfl, hl⟩ := Instr.absy.inj (assemble_of_decode_ok h)
    exact ⟨toNat_byteField w, hl.symm⟩
  · obtain rfl : nbitsField w = n := Instr.tohex.inj (assemble_of_decode_ok h)
    exact nbitsField_eq w

/-- A CMD write of a word that is no command, to an idle block, records ERR_BADOP and changes nothing else (R244). -/
theorem step_write_cmd_of_decode_error {w : Word} {e : DecodeError} {s : State} {rest : List HostOp}
    (hd : decode w = .error e) (hp : s.pending = none) (ho : s.hostOps = .write (Config.base + 0x000) 4 w :: rest) :
    step s = .next { s with hostOps := rest, err := if s.err = .none then .badop else s.err } := by
  have hidle : { s with hostOps := rest }.busy = false := busy_of_none hp
  simp only [step_write_cmd hp ho, presentCommand, hidle, hd, raiseError, firstError_eq_ite, Bool.false_eq_true,
    if_false]

/-- Settles O5: the listed ranges are what the opcode map leaves. -/
theorem reservedOpcodesAreBadop : Obligations.ReservedOpcodesAreBadop := by
  rintro w opc rfl
  refine ⟨?_, fun s rest => step_write_cmd_of_decode_error⟩
  rw [decode_eq_reserved_iff, Opcode.exists_opc_iff]
  omega

/-- Settles O6: row by row, a must-be-zero bit is one past the row's operands. -/
theorem malformedWordsAreBadop : Obligations.MalformedWordsAreBadop := by
  rintro w opc low rfl rfl
  refine ⟨?_, fun s rest => step_write_cmd_of_decode_error⟩
  simp only [decode_eq_malformed_iff, Opcode.exists_iff, Opcode.opc, BitVec.ofNat_eq_ofNat, BitVec.toNat_ofNat,
    Opcode.format, Format.operandBits]
  omega

/-- Settles O1: thirteen fixed words, decoded by evaluation. -/
theorem writtenWordsDecode : Obligations.WrittenWordsDecode := by
  unfold Obligations.WrittenWordsDecode
  decide

end Sys2Proof.Machine
end

section
/-! PROOFS. A program of command lines through the bus: each line runs its command, accepted or refused, and its WAIT
ends the run so far. -/

namespace Sys2Proof.Machine

/-! ## Commands answer, and do not touch the host's side (log 2, log 5) -/

theorem exec_answers (i : Instr) (s : State) : ∃ t, exec i s = .next t := by
  rw [exec_eq_checked]
  cases acceptError i s with
  | some e => exact ⟨raiseError e s, rfl⟩
  | none => exact ⟨effectOf i s, rfl⟩

/-- `s` with the host's side replaced: its next accesses, the replies and the draw counter. -/
def State.withHost (s : State) (ops : List HostOp) (replies : List (Nat × Word)) (draws : Nat) : State :=
  { s with hostOps := ops, replies := replies, draws := draws }

section
variable (ops : List HostOp) (replies : List (Nat × Word)) (draws : Nat)

theorem absorbBits_withHost (bits : List Bool) (last : Bool) (s : State) :
    absorbBits bits last (s.withHost ops replies draws) = (absorbBits bits last s).withHost ops replies draws := by
  induction bits generalizing s with
  | nil => rfl
  | cons b rest ih =>
    cases rest with
    | nil => rfl
    | cons c rest => exact ih (absorbBit b false s)

theorem effectOf_withHost (i : Instr) (s : State) :
    effectOf i (s.withHost ops replies draws) = (effectOf i s).withHost ops replies draws := by
  cases i with
  | absy y last =>
    exact congrArg (fun t : State => { t with bitcnt := s.bitcnt + 8 }) (absorbBits_withHost ops replies draws _ last s)
  | nop | init | adv _ | xorin _ | sqz1 | absb _ _ | final | tohex _ | hexin | clrerr => rfl

/-- A command does to the block the same whatever the host's side, and leaves the host's side as it is. -/
theorem exec_withHost {i : Instr} {s t : State} (h : exec i s = .next t) :
    exec i (s.withHost ops replies draws) = .next (t.withHost ops replies draws) := by
  have haccept : acceptError i (s.withHost ops replies draws) = acceptError i s := acceptError_congr rfl rfl rfl i
  rw [exec_eq_checked, haccept, effectOf_withHost]
  rcases exec_cases h with ⟨e, ha, rfl⟩ | ⟨ha, rfl⟩
  · exact congrArg (checked · _ _) ha
  · exact congrArg (checked · _ _) ha

theorem execAll_withHost (is : List Instr) (s : State) :
    ∃ t, execAll is s = .next t ∧ execAll is (s.withHost ops replies draws) = .next (t.withHost ops replies draws) := by
  induction is generalizing s with
  | nil => exact ⟨s, rfl, rfl⟩
  | cons i is ih =>
    obtain ⟨t, ht⟩ := exec_answers i s
    simpa only [execAll, ht, exec_withHost ops replies draws ht] using ih t

end

/-! ## One line -/

/-- A CMD write of a command that fails its checks records the error at once and nothing is pending (R249, R283). -/
theorem step_write_cmd_refused {s : State} {i : Instr} {e : ErrCode} {rest : List HostOp} (hp : s.pending = none)
    (ho : s.hostOps = .write (Config.base + 0x000) 4 (encode i) :: rest) (hd : decode (encode i) = .ok i)
    (ha : acceptError i s = some e) : step s = .next (raiseError e { s with hostOps := rest }) := by
  have hacc : acceptError i { s with hostOps := rest } = some e := (acceptError_congr rfl rfl rfl i).trans ha
  have hidle : { s with hostOps := rest }.busy = false := busy_of_none hp
  simp only [step_write_cmd hp ho, presentCommand, hidle, hd, hacc, Bool.false_eq_true, if_false]

/-- A command line up to its WAIT leaves what the command leaves, but for the host's side. -/
theorem runSteps_commandLine_exec {s t : State} {i : Instr} {rest : List HostOp} (hi : i.WellFormed)
    (hp : s.pending = none) (ho : s.hostOps = commandLine i ++ rest) (ht : exec i s = .next t) :
    ∃ n replies draws, runSteps n s = .next (t.withHost (.wait :: rest) replies draws) := by
  have hd := decodeEncodeRoundTrip i hi
  rcases exec_cases ht with ⟨e, ha, rfl⟩ | ⟨ha, rfl⟩
  · exact ⟨1, s.replies, s.draws, runSteps_one (step_write_cmd_refused hp ho hd ha)⟩
  · obtain ⟨n, replies, draws, hrun⟩ := runSteps_commandLine hp ho hd ha
    rw [← hp] at hrun
    exact ⟨n, replies, draws, hrun.trans (congrArg _ (effectOf_withHost _ replies draws i s))⟩

theorem pending_of_exec {i : Instr} {s t : State} (h : exec i s = .next t) : t.pending = s.pending := by
  rcases exec_cases h with ⟨e, -, rfl⟩ | ⟨-, rfl⟩
  · rfl
  · obtain ⟨-, -, hpending, -⟩ := effectOf_frame i s
    exact hpending

/-! ## The program -/

/-- A run that ends still does with steps before it (R289). -/
theorem RunEnds.prepend {m n : Nat} {s t u : State} (hrun : runSteps m s = .next t) (h : RunEnds t n u) :
    RunEnds s (m + n) u where
  run := (runSteps_add hrun).trans h.run
  issued := h.issued
  completed := h.completed
  polled := by
    obtain ⟨k, v, w, hk, hv, hpoll, hlast⟩ := h.polled
    exact ⟨m + k, v, w, by omega, (runSteps_add hrun).trans hv, hpoll, hlast⟩

/-- The program's run leaves what its commands leave, but for the host's side, and ends if there is a command. -/
theorem runSteps_commandLines {is : List Instr} {s : State} (hwf : ∀ i ∈ is, i.WellFormed) (hp : s.pending = none)
    (ho : s.hostOps = commandLines is) :
    ∃ n u replies draws, execAll is s = .next u ∧ runSteps n s = .next (u.withHost [] replies draws) ∧
      (is ≠ [] → RunEnds s n (u.withHost [] replies draws)) := by
  induction is generalizing s with
  | nil =>
    have hs : s = s.withHost [] s.replies s.draws := by rw [State.withHost, ← show s.hostOps = [] from ho]
    exact ⟨0, s, s.replies, s.draws, rfl, congrArg _ hs, fun h => absurd rfl h⟩
  | cons i is ih =>
    obtain ⟨hi, his⟩ := List.forall_mem_cons.1 hwf
    obtain ⟨t, ht⟩ := exec_answers i s
    have htp : t.pending = none := (pending_of_exec ht).trans hp
    obtain ⟨n, replies, draws, hline⟩ := runSteps_commandLine_exec hi hp ho ht
    rcases eq_or_ne is [] with rfl | hne
    · have hends := runEnds_wait hline htp rfl
      exact ⟨n + 1, t, _, draws, by simp only [execAll, ht], hends.run, fun _ => hends⟩
    · have hwait := (runSteps_add hline).trans (runSteps_one (step_wait_quiet htp rfl))
      obtain ⟨u, hu, hu'⟩ := execAll_withHost (commandLines is) ((Config.base + 0x004, statusIdle t) :: replies) draws is t
      obtain ⟨m, v, replies', draws', hv, -, hends⟩ := ih his htp (s := t.withHost (commandLines is) _ draws) rfl
      obtain rfl := Host.Outcome.next.inj (hu'.symm.trans hv)
      have hends := RunEnds.prepend hwait (hends hne)
      exact ⟨_, u, replies', draws', by simp only [execAll, ht, hu], hends.run, fun _ => hends⟩

/-- Settles O52: line by line, each up to its WAIT and through it; the last line's WAIT is the poll that ends the run. -/
theorem busProgramRunsCommands : Obligations.BusProgramRunsCommands := by
  intro is s hwf hp ho
  obtain ⟨n, u, replies, draws, hexec, hrun, hends⟩ := runSteps_commandLines hwf hp ho
  exact ⟨n, _, u, hrun, hexec, rfl, rfl, hends⟩

end Sys2Proof.Machine
end

section
/-! PROOFS. The permutation (40_seed_permutation): one round bit by bit, what `advance` adds up to, and the commands
INIT, ADV and XORIN. -/

namespace Sys2Proof.Machine

/-! ## One round (R103, R104, R106) -/

/-- Pf with its two sums of taps as factors. -/
theorem feedbackP_factored (S : SReg) : feedbackP S =
    (((S.getMsbD tapP0 ^^ S.getMsbD tapQ23) && (S.getMsbD tapP11 ^^ S.getMsbD tapP55)) ^^ S.getMsbD tapQ23 ^^
      S.getMsbD tapP55 ^^ true) := by
  unfold feedbackP
  generalize S.getMsbD tapP0 = p0, S.getMsbD tapP11 = p11, S.getMsbD tapP55 = p55, S.getMsbD tapQ23 = q23
  decide +revert

/-- Qf with its two sums of taps as factors. -/
theorem feedbackQ_factored (S : SReg) : feedbackQ S =
    (((S.getMsbD tapQ0 ^^ S.getMsbD tapQ25) && (S.getMsbD tapP48 ^^ S.getMsbD tapQ41)) ^^ S.getMsbD tapQ25 ^^
      S.getMsbD tapQ41) := by
  unfold feedbackQ
  generalize S.getMsbD tapQ0 = q0, S.getMsbD tapQ25 = q25, S.getMsbD tapQ41 = q41, S.getMsbD tapP48 = p48
  decide +revert

theorem getMsbD_regP (S : SReg) {i : Nat} (hi : i < 80) : (regP S).getMsbD i = S.getMsbD i := by
  simp [regP, hi, show 161 - (161 - i) = i by omega]

theorem getMsbD_regQ (S : SReg) {i : Nat} (hi : i < 81) : (regQ S).getMsbD i = S.getMsbD (80 + i) := by
  simp [regQ, hi, show 161 - (81 - i) = 80 + i by omega]
  omega

/-- Every bit of the next state from the old one: two shifts toward index 0 and a new bit at each tail. -/
theorem getMsbD_nlfsrRound (S : SReg) {i : Nat} (hi : i ≤ 160) :
    (nlfsrRound S).getMsbD i =
      if i = 79 then newP S else if i = 160 then newQ S else S.getMsbD (i + 1) := by
  rw [nlfsrRound, BitVec.getMsbD_append]
  by_cases hP : i < 80
  · rw [if_neg (by omega), getMsbD_shiftConcat _ _ _ hP]
    by_cases htail : i = 79
    · simp [htail]
    · rw [if_neg (by omega), if_neg htail, if_neg (by omega), getMsbD_regP S (by omega)]
  · rw [if_pos (by omega), getMsbD_shiftConcat _ _ _ (by omega), if_neg (show i ≠ 79 by omega)]
    by_cases htail : i = 160
    · rw [if_pos (by omega), if_pos htail]
    · rw [if_neg (by omega), if_neg htail, getMsbD_regQ S (by omega), show 80 + (i - 80 + 1) = i + 1 by omega]

/-- Settles O9: the bits of the round, with the two new ones written out from the old state's taps. -/
theorem roundBitByBit : Obligations.RoundBitByBit := by
  intro S b Pf Qf Lf hb hP hQ hL
  have hPf : Pf = feedbackP S := by simp only [hP, hb]; rfl
  have hQf : Qf = feedbackQ S := by simp only [hQ, hb]; rfl
  have hLf : Lf = feedbackL S := by simp only [hL, hb]; rfl
  refine ⟨fun i hi => ?_, ?_, fun i hlow hi => ?_, ?_, ?_, ?_⟩
  · rw [getMsbD_nlfsrRound S (by omega), if_neg (by omega), if_neg (by omega), hb]
  · rw [getMsbD_nlfsrRound S (by omega), if_pos rfl, newP, hPf, hLf]
  · rw [getMsbD_nlfsrRound S (by omega), if_neg (by omega), if_neg (by omega), hb]
  · rw [getMsbD_nlfsrRound S (by omega), if_neg (by omega), if_pos rfl, newQ, hQf, hLf]
  · simp only [hPf, hb]
    exact feedbackP_factored S
  · simp only [hQf, hb]
    exact feedbackQ_factored S

/-! ## What the round forgets (R110) -/

/-- Flipping bit `k` leaves every other bit. -/
theorem getMsbD_flip_of_ne (S : SReg) {i k : Nat} (hk : k ≤ 160) (hne : i ≠ k) :
    (S ^^^ (1#161 <<< (160 - k))).getMsbD i = S.getMsbD i := by
  have hone : (1#161).getMsbD (i + (160 - k)) = false := by
    rw [BitVec.getMsbD_one, decide_eq_false (show i + (160 - k) ≠ 161 - 1 by omega), Bool.false_and]
  rw [BitVec.getMsbD_xor, BitVec.getMsbD_shiftLeft, hone, Bool.xor_false]

/-- P0 and Q0 reach the next state through the feedback bits only. -/
theorem nlfsrRound_congr {S T : SReg} (hbits : ∀ i, i ≤ 160 → i ≠ 0 → i ≠ 80 → T.getMsbD i = S.getMsbD i)
    (hP : feedbackP T = feedbackP S) (hQ : feedbackQ T = feedbackQ S) : nlfsrRound T = nlfsrRound S := by
  have hL : feedbackL T = feedbackL S := by
    rw [feedbackL, hbits tapP1 (by decide) (by decide) (by decide), hbits tapQ1 (by decide) (by decide) (by decide),
      hbits tapP50 (by decide) (by decide) (by decide)]
    rfl
  apply eq_of_getMsbD_eq
  intro i hi
  rw [getMsbD_nlfsrRound T (by omega), getMsbD_nlfsrRound S (by omega), newP, newQ, hP, hQ, hL]
  split_ifs
  · rfl
  · rfl
  · exact hbits (i + 1) (by omega) (by omega) (by omega)

/-- Two states that differ only in P0 step to the same state if P11 = P55: P0's factor in Pf is 0, and neither Qf nor
Lf reads P0. -/
theorem nlfsrRound_eq_of_differ_P0 {S T : SReg} (hT : ∀ i, i ≤ 160 → i ≠ 0 → T.getMsbD i = S.getMsbD i)
    (h : S.getMsbD tapP11 = S.getMsbD tapP55) : nlfsrRound T = nlfsrRound S := by
  apply nlfsrRound_congr (fun i hi h0 _ => hT i hi h0)
  · rw [feedbackP_factored, feedbackP_factored, hT tapP11 (by decide) (by decide), hT tapP55 (by decide) (by decide),
      hT tapQ23 (by decide) (by decide), h, Bool.xor_self, Bool.and_false, Bool.and_false]
  · rw [feedbackQ, hT tapQ0 (by decide) (by decide), hT tapQ25 (by decide) (by decide),
      hT tapQ41 (by decide) (by decide), hT tapP48 (by decide) (by decide)]
    rfl

/-- Two states that differ only in Q0 step to the same state if P48 = Q41: Q0's factor in Qf is 0, and neither Pf nor
Lf reads Q0. -/
theorem nlfsrRound_eq_of_differ_Q0 {S T : SReg} (hT : ∀ i, i ≤ 160 → i ≠ 80 → T.getMsbD i = S.getMsbD i)
    (h : S.getMsbD tapP48 = S.getMsbD tapQ41) : nlfsrRound T = nlfsrRound S := by
  apply nlfsrRound_congr (fun i hi _ h80 => hT i hi h80)
  · rw [feedbackP, hT tapP0 (by decide) (by decide), hT tapP11 (by decide) (by decide),
      hT tapP55 (by decide) (by decide), hT tapQ23 (by decide) (by decide)]
    rfl
  · rw [feedbackQ_factored, feedbackQ_factored, hT tapQ25 (by decide) (by decide), hT tapP48 (by decide) (by decide),
      hT tapQ41 (by decide) (by decide), h, Bool.xor_self, Bool.and_false, Bool.and_false]

theorem nlfsrRound_flip_P0 {S : SReg} (h : S.getMsbD 11 = S.getMsbD 55) :
    nlfsrRound (S ^^^ (1#161 <<< 160)) = nlfsrRound S :=
  nlfsrRound_eq_of_differ_P0 (fun _ _ h0 => getMsbD_flip_of_ne S (k := 0) (by decide) h0) h

theorem nlfsrRound_flip_Q0 {S : SReg} (h : S.getMsbD 48 = S.getMsbD 121) :
    nlfsrRound (S ^^^ (1#161 <<< 80)) = nlfsrRound S :=
  nlfsrRound_eq_of_differ_Q0 (fun _ _ h80 => getMsbD_flip_of_ne S (k := 80) (by decide) h80) h

/-- The all-zero state's only feedback is the constant term of Pf. -/
theorem nlfsrRound_zero : nlfsrRound 0 = 1#161 <<< 81 := by decide

/-- Settles O10: the two flips the round does not see; the named example is the first of them at the all-zero state. -/
theorem roundIsNotInjective : Obligations.RoundIsNotInjective := by
  refine ⟨fun _ => nlfsrRound_flip_P0, fun _ => nlfsrRound_flip_Q0, nlfsrRound_zero, ?_, by decide⟩
  calc nlfsrRound (1#161 <<< 160) = nlfsrRound (0 ^^^ (1#161 <<< 160)) := congrArg nlfsrRound BitVec.zero_xor.symm
    _ = nlfsrRound 0 := nlfsrRound_flip_P0 (by decide)
    _ = 1#161 <<< 81 := nlfsrRound_zero

/-! ## Two commands in a row -/

theorem execAll_pair {i j : Instr} {s t : State} (h : exec i s = .next t) : execAll [i, j] s = exec j t := by
  simp only [execAll, h]
  cases exec j t <;> rfl

/-! ## ADV (R105, R108) -/

/-- Rounds add up. -/
theorem advance_advance (S : SReg) (a b : Nat) : advance (advance S a) b = advance S (a + b) := by
  induction b with
  | zero => rfl
  | succ b ih => exact congrArg nlfsrRound ih

/-- ADV passes every check: it replaces S and nothing else. -/
theorem exec_adv (r : Nat) (s : State) : exec (.adv r) s = .next { s with S := advance s.S r } :=
  exec_of_accepted rfl

/-- Settles O12: the second ADV goes on from the S the first one left. -/
theorem advCountsAdd : Obligations.AdvCountsAdd := by
  intro a b s
  rw [execAll_pair (exec_adv a s), exec_adv, exec_adv, advance_advance]

/-- Settles O11: the recursion of `advance`, and ADV's effect. -/
theorem advAppliesRounds : Obligations.AdvAppliesRounds :=
  ⟨fun S => ⟨advance_zero S, advance_succ S⟩, exec_adv⟩

/-! ## XORIN (R109) -/

/-- XORIN passes every check: it injects its bit and does nothing else. -/
theorem exec_xorin (b : Bool) (s : State) : exec (.xorin b) s = .next { s with S := inject b s.S } :=
  exec_of_accepted rfl

/-- Settles O14: the injection bit by bit; the bit 0 injects nothing, and injecting twice restores S. -/
theorem xorinTogglesInjectionBit : Obligations.XorinTogglesInjectionBit := by
  intro s
  refine ⟨fun b => ⟨_, exec_xorin b s, rfl, fun i hi => ?_, ?_⟩, ?_, ?_⟩
  · exact (getMsbD_inject b s.S i (by omega)).trans (if_neg (by omega))
  · exact (getMsbD_inject b s.S 160 le_rfl).trans (if_pos rfl)
  · rw [exec_xorin, inject_false]
  · rw [execAll_pair (exec_xorin true s), exec_xorin, inject_inject]

/-! ## INIT (R107) -/

/-- INIT passes every check and starts a computation from any state. -/
theorem exec_init (s : State) :
    exec .init s = .next { s with S := SEED, bitcnt := 0, phase := .ready, dv := false } :=
  exec_of_accepted rfl

/-- Settles O13: what the first INIT wrote, the second writes again. -/
theorem initStartsComputation : Obligations.InitStartsComputation := by
  intro s
  refine ⟨exec_init s, ?_⟩
  rw [execAll_pair (exec_init s), exec_init, exec_init]

end Sys2Proof.Machine
end

section
/-! PROOFS. The seed generator (R100 to R102): doubling as arithmetic on the number that the digits write, and the
generated bits as one quotient. -/

namespace Sys2Proof.Machine

/-! ## Digits as a number -/

/-- The number that decimal digits write, most significant first. -/
def decimalValue (digits : List Nat) : Nat := Nat.ofDigits 10 digits.reverse

theorem decimalValue_append (xs ys : List Nat) :
    decimalValue (xs ++ ys) = decimalValue xs * 10 ^ ys.length + decimalValue ys := by
  rw [decimalValue, List.reverse_append, Nat.ofDigits_append, List.length_reverse, Nat.add_comm, Nat.mul_comm]
  rfl

theorem decimalValue_cons (d : Nat) (ds : List Nat) :
    decimalValue (d :: ds) = d * 10 ^ ds.length + decimalValue ds := by
  have h := decimalValue_append [d] ds
  rwa [show decimalValue [d] = d from Nat.ofDigits_singleton] at h

theorem decimalValue_lt {ds : List Nat} (h : ∀ d ∈ ds, d < 10) : decimalValue ds < 10 ^ ds.length := by
  have hlt := Nat.ofDigits_lt_base_pow_length (b := 10) (l := ds.reverse) (by decide)
    fun d hd => h d (List.mem_reverse.1 hd)
  rwa [List.length_reverse] at hlt

/-! ## One doubling -/

@[simp] theorem doubleDigits_length (ds : List Nat) : (doubleDigits ds).2.length = ds.length := by
  induction ds with
  | nil => rfl
  | cons d ds ih => exact congrArg (· + 1) ih

theorem doubleDigits_lt (ds : List Nat) : ∀ d ∈ (doubleDigits ds).2, d < 10 := by
  induction ds with
  | nil => intro d hd; cases hd
  | cons d ds ih => exact List.forall_mem_cons.2 ⟨Nat.mod_lt _ (by decide), ih⟩

/-- The carry and the digits left write twice the number. -/
theorem doubleDigits_value (ds : List Nat) :
    (doubleDigits ds).1 * 10 ^ ds.length + decimalValue (doubleDigits ds).2 = 2 * decimalValue ds := by
  induction ds with
  | nil => rfl
  | cons d ds ih =>
    have hsplit := Nat.div_add_mod (2 * d + (doubleDigits ds).1) 10
    simp only [doubleDigits, decimalValue_cons, doubleDigits_length, List.length_cons, pow_succ]
    generalize (2 * d + (doubleDigits ds).1) / 10 = q, (2 * d + (doubleDigits ds).1) % 10 = r at *
    linear_combination (10 ^ ds.length) * hsplit + ih

/-- Of decimal digits the carry is a bit. -/
theorem doubleDigits_carry_le {ds : List Nat} (h : ∀ d ∈ ds, d < 10) : (doubleDigits ds).1 ≤ 1 := by
  have hlt := decimalValue_lt h
  have hval := doubleDigits_value ds
  by_contra hc
  have : 2 * 10 ^ ds.length ≤ (doubleDigits ds).1 * 10 ^ ds.length := Nat.mul_le_mul_right _ (by omega)
  omega

/-! ## The generator -/

/-- The re-padding never fires on at least 100 digits (R100). -/
theorem repadDigits_of_le {ds : List Nat} (h : seedDigitCount ≤ ds.length) : repadDigits ds = ds := by
  rw [repadDigits, Nat.sub_eq_zero_of_le h, List.replicate_zero, List.append_nil]

/-- Shifting `n` generated bits in behind the number `a`: the register holds the whole part of 2^n times the number
that has `a` before the decimal point and the digits behind it. -/
theorem foldl_shiftConcat_generatedBits (w n a : Nat) {ds : List Nat} (hlen : seedDigitCount ≤ ds.length)
    (h : ∀ d ∈ ds, d < 10) :
    (generatedBits n ds).foldl BitVec.shiftConcat (BitVec.ofNat w a) =
      BitVec.ofNat w (2 ^ n * (a * 10 ^ ds.length + decimalValue ds) / 10 ^ ds.length) := by
  induction n generalizing a ds with
  | zero =>
    rw [pow_zero, Nat.one_mul, Nat.mul_comm a, Nat.mul_add_div (by positivity), Nat.div_eq_of_lt (decimalValue_lt h)]
    rfl
  | succ n ih =>
    have hcarry : ((doubleDigits ds).1 == 1).toNat = (doubleDigits ds).1 := by
      have hle := doubleDigits_carry_le h
      interval_cases (doubleDigits ds).1 <;> rfl
    have hlen' : seedDigitCount ≤ (doubleDigits ds).2.length := by rwa [doubleDigits_length]
    have hdouble : 2 ^ n * ((2 * a + (doubleDigits ds).1) * 10 ^ ds.length + decimalValue (doubleDigits ds).2) =
        2 ^ (n + 1) * (a * 10 ^ ds.length + decimalValue ds) := by
      linear_combination 2 ^ n * doubleDigits_value ds
    rw [generatedBits, List.foldl_cons, repadDigits_of_le hlen', shiftConcat_ofNat, hcarry,
      ih _ hlen' (doubleDigits_lt ds), doubleDigits_length, hdouble]

/-- The seed is the whole part of 2^161 times the decimal fraction that the digits write (R100). -/
theorem generatedSeed_eq {ds : List Nat} (hlen : seedDigitCount ≤ ds.length) (h : ∀ d ∈ ds, d < 10) :
    generatedSeed ds = BitVec.ofNat 161 (2 ^ stateBits * decimalValue ds / 10 ^ ds.length) := by
  have hfold := foldl_shiftConcat_generatedBits 161 stateBits 0 hlen h
  rwa [Nat.zero_mul, Nat.zero_add] at hfold

/-! ## The digits of π -/

theorem piDigits_length : piDigits.length = 100 := by decide

theorem piDigits_lt : ∀ d ∈ piDigits, d < 10 := by decide

/-- SEED is a lower bound of 2^161 times π's fraction from its first 100 digits. -/
theorem seed_le : SEED.toNat * 10 ^ 100 ≤ 2 ^ stateBits * decimalValue piDigits := by decide +kernel

/-- Not even digits that are all 9 would carry the fraction to the next integer. -/
theorem lt_seed_succ : 2 ^ stateBits * (decimalValue piDigits + 1) ≤ (SEED.toNat + 1) * 10 ^ 100 := by decide +kernel

/-- Digits after the first 100 leave the whole part at SEED: they stay between the two bounds. -/
theorem seed_quotient {more : List Nat} (hmore : ∀ d ∈ more, d < 10) :
    2 ^ stateBits * decimalValue (piDigits ++ more) / 10 ^ (piDigits ++ more).length = SEED.toNat := by
  rw [decimalValue_append, List.length_append, piDigits_length, pow_add]
  apply Nat.div_eq_of_lt_le
  · calc SEED.toNat * (10 ^ 100 * 10 ^ more.length)
        = SEED.toNat * 10 ^ 100 * 10 ^ more.length := (Nat.mul_assoc ..).symm
      _ ≤ 2 ^ stateBits * decimalValue piDigits * 10 ^ more.length := Nat.mul_le_mul_right _ seed_le
      _ = 2 ^ stateBits * (decimalValue piDigits * 10 ^ more.length) := Nat.mul_assoc ..
      _ ≤ 2 ^ stateBits * (decimalValue piDigits * 10 ^ more.length + decimalValue more) :=
        Nat.mul_le_mul_left _ (Nat.le_add_right ..)
  · calc 2 ^ stateBits * (decimalValue piDigits * 10 ^ more.length + decimalValue more)
        < 2 ^ stateBits * (decimalValue piDigits * 10 ^ more.length + 10 ^ more.length) :=
          Nat.mul_lt_mul_of_pos_left (Nat.add_lt_add_left (decimalValue_lt hmore) _) (by positivity)
      _ = 2 ^ stateBits * (decimalValue piDigits + 1) * 10 ^ more.length := by ring
      _ ≤ (SEED.toNat + 1) * 10 ^ 100 * 10 ^ more.length := Nat.mul_le_mul_right _ lt_seed_succ
      _ = (SEED.toNat + 1) * (10 ^ 100 * 10 ^ more.length) := Nat.mul_assoc ..

/-- Settles O8: the generated register is the quotient, and the quotient is SEED whatever digits follow. -/
theorem seedIndependentOfPrecision : Obligations.SeedIndependentOfPrecision := by
  intro more hmore
  have hlen : seedDigitCount ≤ (piDigits ++ more).length := by
    rw [List.length_append, piDigits_length]
    exact Nat.le_add_right ..
  rw [generatedSeed_eq hlen (List.forall_mem_append.2 ⟨piDigits_lt, hmore⟩), seed_quotient hmore, BitVec.ofNat_toNat,
    BitVec.setWidth_eq]

/-- Settles O7: the generator's bits are O8 with no digits added, and the rest is read off the constant. -/
theorem seedGeneratorYieldsSeed : Obligations.SeedGeneratorYieldsSeed := by
  have hgen := seedIndependentOfPrecision [] (List.forall_mem_nil _)
  rw [List.append_nil] at hgen
  exact ⟨hgen, rfl, by decide, by decide, by decide +kernel, by decide, by decide⟩

end Sys2Proof.Machine
end

section
/-! PROOFS. The sponge (41_sponge): what lists of absorbing commands add up to, the two squeezing loops as one list of
bits, and whole digests. -/

namespace Sys2Proof.Machine

/-! ## Refusals and lists of commands -/

/-- A command out of sequence raises ERR_SEQ and does nothing else (R242, R245). -/
theorem exec_of_seq {i : Instr} {s : State} (h : acceptError i s = some .seq) :
    exec i s = .next { s with err := if s.err = .none then .seq else s.err } := by
  rw [exec_eq_checked, h, checked_some, raiseError, firstError_eq_ite]

theorem absorbError_eq_seq {s : State} (h : s.phase = .idle ∨ s.phase = .absorbed ∨ s.phase = .squeezed) :
    absorbError s = some .seq := by
  rcases h with h | h | h <;> simp [absorbError_eq, h]

theorem finalError_eq_seq {s : State} (h : s.phase = .idle ∨ s.phase = .absorbing ∨ s.phase = .squeezed) :
    finalError s = some .seq := by
  rcases h with h | h | h <;> simp [finalError_eq, h]

theorem execAll_append {is js : List Instr} {s t : State} (h : execAll is s = .next t) :
    execAll (is ++ js) s = execAll js t := by
  induction is generalizing s with
  | nil => rw [Host.Outcome.next.inj h, List.nil_append]
  | cons i is ih =>
    obtain ⟨u, hu⟩ := exec_answers i s
    simp only [execAll, List.cons_append, hu] at h ⊢
    exact ih h

theorem execAll_singleton (i : Instr) (s : State) : execAll [i] s = exec i s :=
  execAll_pair (i := .nop) (s := s) rfl

/-! ## Absorbing (R140, R144, R145) -/

theorem inject_eq_xor (b : Bool) (S : SReg) : inject b S = S ^^^ (if b then 1#161 else 0#161) := by
  cases b <;> rfl

/-- Settles O15: an accepted ABSB is `absorbBit`, and its policy's round count in one form. -/
theorem absbAbsorbsOneBit : Obligations.AbsbAbsorbsOneBit := by
  refine fun b last s => ⟨fun hphase => ?_, fun hphase => exec_of_seq (absorbError_eq_seq hphase)⟩
  rw [exec_of_accepted (i := .absb b last) (absorbError_eq_none_iff.2 hphase), ← inject_eq_xor, ← absorbRounds_eq]
  rfl

/-- Bits absorbed in two parts: the last bit's flag belongs to the second part. -/
theorem absorbBits_append (xs : List Bool) {ys : List Bool} (hys : ys ≠ []) (last : Bool) (s : State) :
    absorbBits (xs ++ ys) last s = absorbBits ys last (absorbBits xs false s) := by
  obtain ⟨y, ys, rfl⟩ := List.exists_cons_of_ne_nil hys
  induction xs generalizing s with
  | nil => rfl
  | cons x xs ih =>
    cases xs with
    | nil => rfl
    | cons x' xs => exact ih (absorbBit x false s)

theorem absorbBits_cons_false (b : Bool) (rest : List Bool) (s : State) :
    absorbBits (b :: rest) false s = absorbBits rest false (absorbBit b false s) := by
  cases rest <;> rfl

/-- After bits of which none carries LAST the next bit is still in sequence (R245). -/
theorem absorbError_absorbBits (bits : List Bool) {s : State} (h : absorbError s = none) :
    absorbError (absorbBits bits false s) = none := by
  cases bits with
  | nil => exact h
  | cons b rest => exact absorbError_eq_none_iff.2 (.inr (absorbBits_phase b rest false s))

/-- Where absorbing is legal the commands do what absorbing the bits does, and BITCNT counts them. -/
def Absorbs (is : List Instr) (bits : List Bool) (last : Bool) : Prop :=
  ∀ s, absorbError s = none →
    execAll is s = .next { absorbBits bits last s with bitcnt := s.bitcnt + BitVec.ofNat 64 bits.length }

theorem absorbs_nil (last : Bool) : Absorbs [] [] last := by
  intro s _
  simp [execAll, absorbBits]

theorem absorbs_absb (b last : Bool) : Absorbs [.absb b last] [b] last := by
  intro s hs
  rw [execAll_singleton, exec_of_accepted (i := .absb b last) hs]
  rfl

theorem absorbs_absy (y : Byte) (last : Bool) : Absorbs [.absy y last] (byteBits y) last := by
  intro s hs
  rw [execAll_singleton, exec_of_accepted (i := .absy y last) hs, byteBits_length]
  rfl

theorem Absorbs.append {is js : List Instr} {xs ys : List Bool} {last : Bool} (hi : Absorbs is xs false)
    (hj : Absorbs js ys last) (hys : ys ≠ []) : Absorbs (is ++ js) (xs ++ ys) last := by
  intro s hs
  have hnext : absorbError { absorbBits xs false s with bitcnt := s.bitcnt + BitVec.ofNat 64 xs.length } = none :=
    absorbError_absorbBits xs hs
  rw [execAll_append (hi s hs), hj _ hnext, absorbBits_with_bitcnt, absorbBits_append xs hys,
    List.length_append, BitVec.ofNat_add, ← BitVec.add_assoc]

/-- ABSB commands of which only the last may carry LAST. -/
theorem absorbs_map_absb (bits : List Bool) (b last : Bool) :
    Absorbs (bits.map (.absb · false) ++ [.absb b last]) (bits ++ [b]) last := by
  induction bits with
  | nil => exact absorbs_absb b last
  | cons c bits ih => exact (absorbs_absb c false).append ih (by simp)

/-- Settles O16: ABSY and the eight ABSB absorb the same bits. -/
theorem absyIsEightAbsb : Obligations.AbsyIsEightAbsb := by
  refine fun y last s => ⟨fun hphase => ?_, fun hphase => exec_of_seq (absorbError_eq_seq hphase)⟩
  have hs : absorbError s = none := absorbError_eq_none_iff.2 hphase
  have hbits := absorbs_map_absb [y.getLsbD 7, y.getLsbD 6, y.getLsbD 5, y.getLsbD 4, y.getLsbD 3, y.getLsbD 2,
    y.getLsbD 1] (y.getLsbD 0) last s hs
  obtain ⟨S', h⟩ := effectOf_absy y last s
  exact ⟨effectOf (.absy y last) s, exec_of_accepted hs, hbits, by rw [h]; rfl⟩

/-! ## Whole messages (R140, R149) -/

/-- A bit that is neither the first nor the last gets the interior round count. -/
theorem roundsAt_interior {i k : Nat} (h0 : 0 < i) (hk : i + 1 < k) : roundsAt i k = 162 :=
  if_neg (by omega)

/-- The loop of R140 over bits of which none is the first or the last of the message's `k`. -/
theorem foldl_zipIdx_interior {mid : List Bool} {i k : Nat} (h0 : 0 < i) (hk : i + mid.length < k) (S : SReg) :
    (mid.zipIdx i).foldl (fun T bi => advance (inject bi.1 T) (roundsAt bi.2 k)) S =
      mid.foldl (fun T m => advance (inject m T) 162) S := by
  induction mid generalizing i S with
  | nil => rfl
  | cons m mid ih =>
    rw [List.length_cons] at hk
    rw [List.zipIdx_cons, List.foldl_cons, List.foldl_cons, ih (by omega) (by omega), roundsAt_interior h0 (by omega)]

/-- Settles O20: the first and the last bit's counts are the edge's, and between them the loop is interior. -/
theorem absorbRoundCounts : Obligations.AbsorbRoundCounts := by
  refine fun S => ⟨rfl, fun b => rfl, fun b mid c => ?_⟩
  have hlen : (b :: mid ++ [c]).length = 1 + mid.length + 1 := by simp [Nat.add_comm]
  have hfirst : roundsAt 0 (1 + mid.length + 1) = 324 := if_pos (.inl rfl)
  have hlast : roundsAt (1 + mid.length) (1 + mid.length + 1) = 324 := if_pos (.inr rfl)
  rw [absorb, hlen, if_neg (Nat.succ_ne_zero _), List.cons_append, List.zipIdx_cons, List.zipIdx_append,
    List.foldl_cons, List.foldl_append, hfirst, foldl_zipIdx_interior Nat.one_pos (Nat.lt_succ_self _),
    List.zipIdx_singleton, List.foldl_cons, List.foldl_nil, hlast]

/-- After the first bit, bits without LAST are the interior of R140's loop. -/
theorem absorbBits_interior {mid : List Bool} {s : State} (hs : s.phase = .absorbing) :
    (absorbBits mid false s).S = mid.foldl (fun T m => advance (inject m T) 162) s.S := by
  induction mid generalizing s with
  | nil => rfl
  | cons m mid ih =>
    rw [absorbBits_cons_false, ih rfl, absorbBit_S, absorbRounds_eq, if_neg (by simp [hs]), List.foldl_cons]

/-- From READY a message's bits, the last of them with LAST, are R140's `absorb`. -/
theorem absorbBits_S_eq_absorb {m : List Bool} (hm : m ≠ []) {s : State} (hs : s.phase = .ready) :
    (absorbBits m true s).S = absorb s.S m := by
  obtain ⟨b, rest, rfl⟩ := List.exists_cons_of_ne_nil hm
  obtain ⟨-, hone, hmany⟩ := absorbRoundCounts s.S
  rcases List.eq_nil_or_concat rest with rfl | ⟨mid, c, rfl⟩
  · rw [hone, absorbBits, absorbBit_S, absorbRounds_eq, if_pos (.inl hs)]
  · have hfirst : (absorbBit b false s).S = advance (inject b s.S) 324 := by
      rw [absorbBit_S, absorbRounds_eq, if_pos (.inl hs)]
    rw [List.concat_eq_append, ← List.cons_append, hmany, absorbBits_append _ (List.cons_ne_nil c []), absorbBits,
      absorbBit_S, absorbRounds_eq, if_pos (.inr rfl), absorbBits_cons_false, absorbBits_interior rfl, hfirst]

/-! ## Squeezing (R141, R146, R147) -/

/-- The bits S[160] after each of the `n` rounds that follow `S` (R141). -/
def squeezedBits (S : SReg) (n : Nat) : List Bool := (List.range n).map fun j => extractionBit (advance S (j + 1))

@[simp] theorem length_squeezedBits (S : SReg) (n : Nat) : (squeezedBits S n).length = n := by
  simp [squeezedBits]

theorem squeezedBits_succ (S : SReg) (n : Nat) :
    squeezedBits S (n + 1) = squeezedBits S n ++ [extractionBit (advance S (n + 1))] := by
  rw [squeezedBits, List.range_succ, List.map_append]
  rfl

/-- The loop of R141 appends these bits. -/
theorem squeezeLoop_eq (n : Nat) (S : SReg) : squeezeLoop n S = (advance S n, squeezedBits S n) := by
  induction n with
  | zero => rfl
  | succ n ih =>
    rw [squeezeLoop, ih, squeezedBits_succ]
    rfl

/-- The loop of R146 shifts these bits into D. -/
theorem squeezeSteps_eq (n : Nat) (S : SReg) (D : DReg) :
    squeezeSteps n (S, D) = (advance S n, (squeezedBits S n).foldl BitVec.shiftConcat D) := by
  induction n with
  | zero => rfl
  | succ n ih =>
    rw [squeezeSteps, ih, squeezedBits_succ, List.foldl_append]
    rfl

/-- A whole sequence shifted in leaves nothing of what the register held (R23). -/
theorem foldl_shiftConcat_eq_ofMsbBits {n : Nat} {bits : List Bool} (h : bits.length = n) (x : BitVec n) :
    bits.foldl BitVec.shiftConcat x = ofMsbBits n bits := by
  apply eq_of_getMsbD_eq
  intro i hi
  rw [ofMsbBits, getMsbD_foldl_shiftConcat bits x i hi, getMsbD_foldl_shiftConcat bits _ i hi, if_neg (by omega),
    if_neg (by omega)]

/-- An accepted FINAL leaves S after 160 rounds and D the bits squeezed in them (R146, R151). -/
theorem exec_final {s : State} (h : finalError s = none) :
    exec .final s = .next { s with
      S := advance (finalStart s) 160, D := ofMsbBits 160 (squeezedBits (finalStart s) 160),
      phase := .squeezed, dv := true, hv := false } := by
  rw [exec_of_accepted (i := .final) h, effectOf, squeezeSteps_eq, squeezeCount,
    foldl_shiftConcat_eq_ofMsbBits (length_squeezedBits _ _)]

/-- Settles O17: D is filled by the squeezed bits, the first at index 0. -/
theorem finalSqueezesDigest : Obligations.FinalSqueezesDigest := by
  refine fun s => ⟨fun S0 hstart => ?_, fun hphase => exec_of_seq (finalError_eq_seq hphase)⟩
  have hS0 : finalError s = none ∧ finalStart s = S0 := by
    rcases hstart with ⟨hphase, rfl⟩ | ⟨hphase, rfl⟩ <;> simp [finalError_eq, finalStart, roundsEdge, hphase]
  obtain ⟨haccept, rfl⟩ := hS0
  refine ⟨_, exec_final haccept, rfl, fun j hj => ?_⟩
  rw [getMsbD_ofMsbBits _ (length_squeezedBits _ _) j hj]
  simp [squeezedBits, extractionBit, injectIndex]

/-- SQZ1 passes every check: it is one squeeze step on S and D, which no longer hold a digest. -/
theorem exec_sqz1 (s : State) :
    exec .sqz1 s = .next { s with
      S := (squeezeStep (s.S, s.D)).1, D := (squeezeStep (s.S, s.D)).2, dv := false, hv := false } :=
  exec_of_accepted rfl

/-- Settles O18: the new bit enters D at its tail. -/
theorem sqzOneSqueezesOneBit : Obligations.SqzOneSqueezesOneBit := by
  refine fun s => ⟨_, exec_sqz1 s, rfl, fun j hj => ?_, ?_⟩
  · exact (getMsbD_shiftConcat s.D _ j (by omega)).trans (if_neg (by omega))
  · exact (getMsbD_shiftConcat s.D _ 159 (by decide)).trans (if_pos rfl)

/-- One or more SQZ1 commands are as many squeeze steps. -/
theorem execAll_replicate_sqz1 (n : Nat) (s : State) :
    execAll (List.replicate (n + 1) .sqz1) s = .next { s with
      S := (squeezeSteps (n + 1) (s.S, s.D)).1, D := (squeezeSteps (n + 1) (s.S, s.D)).2, dv := false, hv := false } := by
  induction n with
  | zero => exact (execAll_singleton _ s).trans (exec_sqz1 s)
  | succ n ih =>
    rw [List.replicate_succ', execAll_append ih, execAll_singleton, exec_sqz1]
    rfl

/-- Settles O19: both are 160 squeeze steps from S and D. -/
theorem rawSqueezeMatchesFinal : Obligations.RawSqueezeMatchesFinal :=
  fun s => ⟨_, _, execAll_replicate_sqz1 159 s, exec_of_accepted (i := .final) rfl, rfl⟩

/-! ## Digests (R142, R148, R150) -/

theorem absorbs_absbits (m : List Bool) : Absorbs (absbits m) m true := by
  induction m with
  | nil => exact absorbs_nil true
  | cons b rest ih =>
    cases rest with
    | nil => exact absorbs_absb b true
    | cons c rest => exact (absorbs_absb b false).append ih (List.cons_ne_nil c rest)

theorem absorbs_absmsg (y : List Byte) : Absorbs (absmsg y) (msgBits y) true := by
  induction y with
  | nil => exact absorbs_nil true
  | cons y rest ih =>
    cases rest with
    | nil => exact absorbs_absy y true
    | cons z rest => exact (absorbs_absy y false).append ih (List.cons_ne_nil _ _)

@[simp] theorem length_msgBits (y : List Byte) : (msgBits y).length = 8 * y.length := by
  simp [msgBits, Nat.mul_comm]

/-- FINAL after a message, the empty one included: it is in sequence, and starts to squeeze from R140's `absorb`. -/
theorem finalStart_absorbBits (m : List Bool) {s : State} (hs : s.phase = .ready) (count : BitVec 64) :
    finalError { absorbBits m true s with bitcnt := count } = none ∧
      finalStart { absorbBits m true s with bitcnt := count } = absorb s.S m := by
  cases m with
  | nil => exact ⟨finalError_eq_none_iff.2 (.inl hs), by simp only [absorbBits, finalStart, hs]; rfl⟩
  | cons b rest =>
    have hphase : (absorbBits (b :: rest) true s).phase = .absorbed := absorbBits_phase b rest true s
    exact ⟨finalError_eq_none_iff.2 (.inr hphase), by
      simp only [finalStart, hphase, absorbBits_S_eq_absorb (List.cons_ne_nil b rest) hs]⟩

theorem digestOfBits_eq (m : List Bool) : digestOfBits m = squeezedBits (absorb SEED m) 160 := by
  rw [digestOfBits, squeeze, squeezeLoop_eq, squeezeCount]

/-- From READY with nothing counted, commands that absorb a message and FINAL leave the bits squeezed from `absorb`. -/
theorem execAll_absorb_final {is : List Instr} {m : List Bool} (h : Absorbs is m true) {s : State}
    (hs : s.phase = .ready) (hcount : s.bitcnt = 0#64) :
    execAll (is ++ [.final]) s = .next { s with
      S := advance (absorb s.S m) 160, D := ofMsbBits 160 (squeezedBits (absorb s.S m) 160),
      bitcnt := BitVec.ofNat 64 m.length, phase := .squeezed, dv := true, hv := false } := by
  have hrun := h s (absorbError_eq_none_iff.2 (.inl hs))
  obtain ⟨haccept, hstart⟩ := finalStart_absorbBits m hs (s.bitcnt + BitVec.ofNat 64 m.length)
  obtain ⟨S', phase', hframe⟩ := absorbBits_eq m true s
  rw [execAll_append hrun, execAll_singleton, exec_final haccept, hstart, hframe, hcount, BitVec.zero_add]

/-- INIT, commands that absorb a message, and FINAL leave the message's digest (R148). -/
theorem execAll_hash {is : List Instr} {m : List Bool} (h : Absorbs is m true) (s : State) :
    ∃ t, execAll (.init :: is ++ [.final]) s = .next t ∧ msbBits t.D = digestOfBits m ∧
      t = { s with S := t.S, D := t.D, bitcnt := BitVec.ofNat 64 m.length, phase := .squeezed,
                   dv := true, hv := false } := by
  have hinit : execAll [.init] s = .next { s with S := SEED, bitcnt := 0, phase := .ready, dv := false } :=
    (execAll_singleton _ s).trans (exec_init s)
  refine ⟨_, (execAll_append hinit).trans (execAll_absorb_final h rfl rfl), ?_, rfl⟩
  rw [digestOfBits_eq]
  exact msbBits_ofMsbBits _ (length_squeezedBits _ _)

/-- Settles O22: ABSMSG and ABSBITS both absorb the message between INIT and FINAL. -/
theorem streamedHashIsDigest : Obligations.StreamedHashIsDigest := by
  refine fun s => ⟨fun y => ?_, fun m => execAll_hash (absorbs_absbits m) s⟩
  rw [← length_msgBits]
  exact execAll_hash (absorbs_absmsg y) s

/-- The digest of the empty message, computed by the model (R150). -/
theorem digest_empty : digest [] = msbBits 0xE50A9A3F562B83F9E1708292B618682ED44345DF#160 := by decide +kernel

/-- Settles O21: injecting 0 changes nothing, and a byte message's length is a multiple of 8. -/
theorem zeroBitMessageIsEmptyMessage : Obligations.ZeroBitMessageIsEmptyMessage := by
  have hzero (S : SReg) : absorb S [false] = absorb S [] := by
    obtain ⟨hnone, hone, -⟩ := absorbRoundCounts S
    rw [hnone, hone, inject_false]
  refine ⟨hzero, by rw [digest, digestOfBits, hzero]; rfl, digest_empty, fun y h => ?_⟩
  have hlen := congrArg List.length h
  rw [length_msgBits, List.length_singleton] at hlen
  omega

end Sys2Proof.Machine
end

section
/-! PROOFS. The codec (42_codec): what a rendered text's digits are, that parsing it gives the bits back, and the
commands TOHEX and HEXIN. -/

namespace Sys2Proof.Machine

/-! ## Refusals (R242, R246, R247) -/

/-- A command whose check fails raises that check's error and does nothing else. -/
theorem exec_of_refused {i : Instr} {s : State} {e : ErrCode} (h : acceptError i s = some e) :
    exec i s = .next { s with err := if s.err = .none then e else s.err } := by
  rw [exec_eq_checked, h, checked_some, raiseError, firstError_eq_ite]

theorem tohexError_eq_badlen {n : Nat} (h : n < 1 ∨ 160 < n) : tohexError n = some .badlen := if_pos h

theorem hexinError_eq_badlen {s : State} (h : 64 < s.hexinLen.toNat) : hexinError s = some .badlen := if_pos h

/-- The characters HEXIN takes for digits are those that R12 lists. -/
theorem hexVal?_isSome_iff {c : Byte} : (hexVal? c).isSome = true ↔ ∃ v, HexDigitValue c v := by
  refine ⟨fun h => ?_, fun ⟨v, hv⟩ => by rw [hexVal?_of_digit hv]; rfl⟩
  simp only [hexVal?] at h
  split_ifs at h with h1 h2 h3
  · exact ⟨_, .inl ⟨h1.1, h1.2, rfl⟩⟩
  · exact ⟨_, .inr (.inl ⟨h2.1, h2.2, rfl⟩)⟩
  · exact ⟨_, .inr (.inr ⟨h3.1, h3.2, rfl⟩)⟩
  · cases h

/-- A short text with a character that is no digit, after the optional prefix, is refused. -/
theorem hexinError_eq_badhex {s : State} (hlen : s.hexinLen.toNat ≤ 64)
    (h : ∃ c ∈ stripHexPrefix (hexinText s), ∀ v, ¬ HexDigitValue c v) : hexinError s = some .badhex := by
  have hshort : ¬ hexinMax < s.hexinLen.toNat := Nat.not_lt.2 hlen
  obtain ⟨c, hc, hbad⟩ := h
  rw [hexinError, if_neg hshort, if_neg]
  intro hall
  obtain ⟨v, hv⟩ := hexVal?_isSome_iff.1 (List.all_eq_true.1 hall c hc)
  exact hbad v hv

/-! ## The prefix (R181, R183) -/

theorem stripHexPrefix_prefixed {pre : List Byte} (h : pre = [0x30, 0x78] ∨ pre = [0x30, 0x58]) (rest : List Byte) :
    stripHexPrefix (pre ++ rest) = rest := by
  rcases h with rfl | rfl <;> rfl

theorem stripHexPrefix_unprefixed {text : List Byte}
    (h : ∀ more, text ≠ 0x30 :: 0x78 :: more ∧ text ≠ 0x30 :: 0x58 :: more) : stripHexPrefix text = text := by
  rcases text with _ | ⟨c0, _ | ⟨c1, rest⟩⟩
  · rfl
  · rfl
  · refine if_neg fun ⟨h0, h1⟩ => ?_
    rcases h1 with rfl | rfl
    · exact (h rest).1 (congrArg (· :: _) h0)
    · exact (h rest).2 (congrArg (· :: _) h0)

/-! ## HEXIN's obligations -/

/-- Settles O25: the length is checked first, then the characters after the prefix. -/
theorem hexinRefusesBadText : Obligations.HexinRefusesBadText := by
  refine fun s => ⟨fun hlong => exec_of_refused (hexinError_eq_badlen hlong), fun pre rest hlen htext hpre hbad => ?_⟩
  have hstrip : stripHexPrefix (hexinText s) = rest := by
    rw [hexinText, htext]
    rcases hpre with h | h | ⟨rfl, hnone⟩
    · exact stripHexPrefix_prefixed (.inl h) rest
    · exact stripHexPrefix_prefixed (.inr h) rest
    · exact stripHexPrefix_unprefixed hnone
  exact exec_of_refused (hexinError_eq_badhex hlen (by rwa [hstrip]))

/-- Settles O24: what is left of the text after the prefix is digits, so HEXIN accepts it and stores their number. -/
theorem hexinParsesText : Obligations.HexinParsesText := by
  intro s pre digits vs hlen htext hpre hdigits
  have hstrip : stripHexPrefix (hexinText s) = digits := by
    rw [hexinText, htext]
    rcases hpre with rfl | h
    · exact stripHexPrefix_of_digits hdigits
    · exact stripHexPrefix_prefixed h digits
  rw [← hstrip] at hdigits
  rw [exec_of_accepted (i := .hexin) (hexinError_of_digits hlen hdigits), effectOf_hexin_of_digits hdigits]

/-- Two buffers that agree below the length hold the same text. -/
theorem hexinText_congr {s : State} {buf : Vector Byte 64}
    (h : ∀ c : Fin 64, c.val < s.hexinLen.toNat → buf[c] = s.hexin[c]) :
    hexinText { s with hexin := buf } = hexinText s := by
  apply List.ext_getElem
  · simp [hexinText]
  · intro c hc _
    simp only [hexinText, List.length_take, Vector.length_toList, lt_min_iff] at hc
    simpa [hexinText] using h ⟨c, hc.2⟩ hc.1

/-- Settles O28: HEXIN's check and effect read the buffer through its text only. -/
theorem hexinIgnoresCharactersPastLength : Obligations.HexinIgnoresCharactersPastLength := by
  intro s buf h
  have htext := hexinText_congr h
  have herror : acceptError .hexin { s with hexin := buf } = acceptError .hexin s := by
    simp only [acceptError, hexinError, htext]
  have heffect : effectOf .hexin { s with hexin := buf } = { effectOf .hexin s with hexin := buf } := by
    simp only [effectOf, htext]
  rw [exec_eq_checked .hexin s, exec_eq_checked .hexin { s with hexin := buf }, herror, heffect]
  cases acceptError .hexin s with
  | some e => exact ⟨raiseError e s, rfl, rfl⟩
  | none => exact ⟨effectOf .hexin s, rfl, rfl⟩

/-! ## Rendering (R180) -/

/-- A rendered digit is a hex digit of its value. -/
theorem hexDigitValue_hexDigit (d : BitVec 4) : HexDigitValue (hexDigit d) d.toNat := by
  revert d
  decide

theorem hexDigitBits_hexDigit (d : BitVec 4) : hexDigitBits (hexDigit d) = msbBits d := by
  rw [hexDigitBits_of_digit (hexDigitValue_hexDigit d), BitVec.ofNat_toNat, BitVec.setWidth_eq]

theorem hexDigitValues_hexDigit (ds : List (BitVec 4)) :
    List.Forall₂ HexDigitValue (ds.map hexDigit) (ds.map BitVec.toNat) := by
  rw [List.forall₂_map_left_iff, List.forall₂_map_right_iff, List.forall₂_same]
  exact fun d _ => hexDigitValue_hexDigit d

/-- Whole groups of bits are rendered by the digits whose bits they are. -/
theorem groupDigits_eq_map : ∀ bits : List Bool, bits.length % 4 = 0 →
    ∃ ds : List (BitVec 4), groupDigits bits = ds.map hexDigit ∧ ds.flatMap msbBits = bits
  | [], _ => ⟨[], rfl, rfl⟩
  | b0 :: b1 :: b2 :: b3 :: rest, h => by
    obtain ⟨ds, hdigits, hbits⟩ := groupDigits_eq_map rest (by simp only [List.length_cons] at h; omega)
    refine ⟨ofMsbBits 4 [b0, b1, b2, b3] :: ds, ?_, ?_⟩
    · rw [groupDigits, hdigits, List.map_cons]
    · rw [List.flatMap_cons, msbBits_ofMsbBits (n := 4) _ rfl, hbits]
      rfl
  | [_], h | [_, _], h | [_, _, _], h => by simp at h

/-- `toHex` renders by lowercase digits whose bits are the text's bits behind the padding. -/
theorem toHex_eq_map (bits : List Bool) :
    ∃ ds : List (BitVec 4), toHex bits = ds.map hexDigit ∧
      ds.flatMap msbBits = List.replicate ((4 - bits.length % 4) % 4) false ++ bits :=
  groupDigits_eq_map _ (by rw [List.length_append, List.length_replicate]; omega)

/-! ## Parsing (R181, R184) -/

theorem flatMap_hexDigitBits_of_digits {text : List Byte} {vs : List Nat} (h : List.Forall₂ HexDigitValue text vs) :
    text.flatMap hexDigitBits = vs.flatMap fun v => msbBits (BitVec.ofNat 4 v) := by
  induction h with
  | nil => rfl
  | cons hd _ ih => rw [List.flatMap_cons, List.flatMap_cons, hexDigitBits_of_digit hd, ih]

theorem flatMap_hexDigitBits_replicate_zero (n : Nat) :
    (List.replicate n 0x30#8).flatMap hexDigitBits = List.replicate (4 * n) false := by
  induction n with
  | zero => rfl
  | succ n ih =>
    rw [List.replicate_succ, List.flatMap_cons, ih, Nat.mul_succ, Nat.add_comm, List.replicate_add]
    rfl

/-- A text of digits parses to the bits of its first 40 digits, behind the zero bits that a shorter text lacks. -/
theorem hexToBits160_of_digits {text : List Byte} {vs : List Nat} (h : List.Forall₂ HexDigitValue text vs) :
    hexToBits160 text = List.replicate (160 - 4 * text.length) false ++
      (vs.take 40).flatMap fun v => msbBits (BitVec.ofNat 4 v) := by
  have hpad : 4 * (40 - text.length) = 160 - 4 * text.length := by omega
  rw [hexToBits160, stripHexPrefix_of_digits h, show digestBitCount = 4 * 40 from rfl, take_flatMap_hexDigitBits,
    take_pad, List.flatMap_append, flatMap_hexDigitBits_replicate_zero, hpad,
    flatMap_hexDigitBits_of_digits (List.forall₂_take 40 h)]

/-- Parsing the rendering of 160 bits gives them back. -/
theorem hexToBits160_toHex (X : DReg) : hexToBits160 (toHex (msbBits X)) = msbBits X := by
  obtain ⟨ds, hdigits, hbits⟩ := toHex_eq_map (msbBits X)
  have hlen : ds.length = 40 := by
    have h := length_toHex (msbBits X)
    rwa [hdigits, List.length_map, msbBits_length] at h
  have htake : (ds.map BitVec.toNat).take 40 = ds.map BitVec.toNat := List.take_of_length_le (by simp [hlen])
  rw [hdigits, hexToBits160_of_digits (hexDigitValues_hexDigit ds), htake, List.flatMap_map, List.length_map, hlen]
  simpa using hbits

/-- Settles O26: a text of digits has no prefix, and is padded or cut to 40 digits. -/
theorem hexTextCornerCases : Obligations.HexTextCornerCases := by
  refine ⟨by decide +kernel, fun text vs h => ⟨fun hshort => ?_, fun hlong => ?_⟩, hexToBits160_toHex⟩
  · rw [hexToBits160_of_digits h, List.take_of_length_le (by rw [← h.length_eq]; omega)]
  · rw [hexToBits160_of_digits h, Nat.sub_eq_zero_of_le (by omega), List.replicate_zero, List.nil_append]

/-! ## The digits of a number (R182) -/

/-- The number of digits given most significant first, as the library has it of digits least significant first. -/
theorem foldl_digits_eq_ofDigits (vs : List Nat) :
    vs.foldl (fun n v => 16 * n + v) 0 = Nat.ofDigits 16 vs.reverse := by
  rw [Nat.ofDigits_eq_foldr, List.foldr_reverse]
  simp only [Nat.cast_id, Nat.add_comm]

theorem foldl_digits_lt {vs : List Nat} (h : ∀ v ∈ vs, v < 16) :
    vs.foldl (fun n v => 16 * n + v) 0 < 16 ^ vs.length := by
  rw [foldl_digits_eq_ofDigits, ← List.length_reverse]
  exact Nat.ofDigits_lt_base_pow_length (by decide) fun v hv => h v (List.mem_reverse.1 hv)

/-- Digit `i` of a number of hex digits, counted from the most significant one. -/
theorem getElem_eq_div_mod {vs : List Nat} (h : ∀ v ∈ vs, v < 16) {i : Nat} (hi : i < vs.length) :
    vs[i] = vs.foldl (fun n v => 16 * n + v) 0 / 16 ^ (vs.length - 1 - i) % 16 := by
  have hidx : vs.length - 1 - (vs.length - 1 - i) = i := by omega
  rw [foldl_digits_eq_ofDigits,
    Nat.ofDigits_div_pow_eq_ofDigits_drop _ (by decide) _ fun v hv => h v (List.mem_reverse.1 hv),
    List.drop_eq_getElem_cons (by rw [List.length_reverse]; omega), Nat.ofDigits_cons, Nat.add_mul_mod_self_left,
    List.getElem_reverse]
  simp only [hidx]
  exact (Nat.mod_eq_of_lt (h _ (List.getElem_mem hi))).symm

/-! ## TOHEX's text (R180, R182) -/

theorem digitValues_lt_sixteen (ds : List (BitVec 4)) : ∀ v ∈ ds.map BitVec.toNat, v < 16 :=
  List.forall_mem_map.2 fun d _ => d.isLt

theorem hexDigit_eq_char (d : BitVec 4) :
    hexDigit d = BitVec.ofNat 8 ("0123456789abcdef".toList.getD d.toNat '0').toNat := by
  revert d
  decide

theorem length_digestPrefix {n : Nat} (hn : n ≤ 160) (D : DReg) : (digestPrefix D n).length = n := by
  rw [digestPrefix, List.length_take, msbBits_length, Nat.min_eq_left hn]

theorem length_toHex_digestPrefix {n : Nat} (hn : n ≤ 160) (D : DReg) :
    (toHex (digestPrefix D n)).length = (n + 3) / 4 := by
  rw [length_toHex, length_digestPrefix hn]

/-- The first `n` bits of D, behind any number of zeros, are the number D has without its last 160 - n bits. -/
theorem foldl_shiftConcat_digestPrefix {n : Nat} (hn : n ≤ 160) (k : Nat) (D : DReg) :
    (List.replicate k false ++ digestPrefix D n).foldl BitVec.shiftConcat 0#160 = D >>> (160 - n) := by
  have hzeros : (List.replicate k false).foldl BitVec.shiftConcat 0#160 = 0#160 := by
    induction k with
    | zero => rfl
    | succ k ih => exact ih
  rw [List.foldl_append, hzeros]
  apply eq_of_getMsbD_eq
  intro i hi
  rw [getMsbD_foldl_shiftConcat _ _ i hi, length_digestPrefix hn, BitVec.getMsbD_ushiftRight]
  by_cases hlow : i + n < 160
  · simp [hlow, show i < 160 - n by omega]
  · have hsub : i + n - 160 = i - (160 - n) := by omega
    have hin : i - (160 - n) < n := by omega
    have hrange : i - (160 - n) < 160 := by omega
    simp [hlow, hi, hsub, hin, hrange, digestPrefix, msbBits, show ¬ i < 160 - n by omega]

/-- The digits that render the first `n` bits of D, and the number they write. -/
theorem toHex_digestPrefix_eq_map {n : Nat} (hn : n ≤ 160) (D : DReg) :
    ∃ ds : List (BitVec 4), toHex (digestPrefix D n) = ds.map hexDigit ∧ ds.length = (n + 3) / 4 ∧
      (ds.map BitVec.toNat).foldl (fun n v => 16 * n + v) 0 = D.toNat / 2 ^ (160 - n) := by
  obtain ⟨ds, hdigits, hbits⟩ := toHex_eq_map (digestPrefix D n)
  have hlen : ds.length = (n + 3) / 4 := by
    rw [← length_toHex_digestPrefix hn D, hdigits, List.length_map]
  refine ⟨ds, hdigits, hlen, ?_⟩
  have hfold := foldl_shiftConcat_digits 160 (hexDigitValues_hexDigit ds) 0
  simp only [List.flatMap_map, hexDigitBits_hexDigit] at hfold
  rw [hbits, foldl_shiftConcat_digestPrefix hn] at hfold
  have hfit : (ds.map BitVec.toNat).foldl (fun n v => 16 * n + v) 0 < 2 ^ 160 :=
    calc _ < 16 ^ (ds.map BitVec.toNat).length := foldl_digits_lt (digitValues_lt_sixteen ds)
      _ ≤ 16 ^ 40 := Nat.pow_le_pow_right (by decide) (by rw [List.length_map]; omega)
      _ = 2 ^ 160 := by decide
  have hnum := congrArg BitVec.toNat hfold
  rw [BitVec.toNat_ushiftRight, Nat.shiftRight_eq_div_pow, BitVec.toNat_ofNat, Nat.mod_eq_of_lt hfit] at hnum
  exact hnum.symm

/-- Character `i` of TOHEX's text is the lowercase digit at its place in the number of D's first `n` bits. -/
theorem getElem_toHex_digestPrefix {n : Nat} (hn : n ≤ 160) (D : DReg) {i : Nat} (hi : i < (n + 3) / 4) :
    (toHex (digestPrefix D n))[i]? = some (BitVec.ofNat 8 ("0123456789abcdef".toList.getD
      (D.toNat / 2 ^ (160 - n) / 16 ^ ((n + 3) / 4 - 1 - i) % 16) '0').toNat) := by
  obtain ⟨ds, hdigits, hlen, hnum⟩ := toHex_digestPrefix_eq_map hn D
  have hdigit := getElem_eq_div_mod (digitValues_lt_sixteen ds) (i := i) (by rw [List.length_map]; omega)
  simp only [List.getElem_map, List.length_map, hlen, hnum] at hdigit
  rw [hdigits, List.getElem?_map, List.getElem?_eq_getElem (by omega), Option.map_some, hexDigit_eq_char, hdigit]

/-- Settles O23: the text's digits, then zeros where the text has no character. -/
theorem tohexRendersDigest : Obligations.TohexRendersDigest := by
  refine fun n s => ⟨fun h1 h160 => ?_, fun hbad => exec_of_refused (tohexError_eq_badlen hbad)⟩
  have hlen := length_toHex_digestPrefix h160 s.D
  refine ⟨effectOf (.tohex n) s, exec_of_accepted (i := .tohex n) (tohexError_eq_none_iff.2 ⟨h1, h160⟩), ?_, fun c => ?_⟩
  · simp only [effectOf, hlen]
  · rw [effectOf, getElem_hexoutImage]
    split_ifs with hc
    · rw [getElem_toHex_digestPrefix h160 s.D hc, Option.getD_some]
    · rw [List.getElem?_eq_none (by omega), Option.getD_none]

/-! ## The round trip by commands (R184) -/

/-- TOHEX 160 leaves the text of the whole of D in HEXOUT. -/
theorem exec_tohex_all (s : State) : exec (.tohex 160) s = .next { s with
    hexout := hexoutImage (toHex (msbBits s.D)), hexoutLen := 40, hv := true } := by
  have hall : digestPrefix s.D 160 = msbBits s.D := List.take_of_length_le (msbBits_length s.D).le
  rw [exec_of_accepted (i := .tohex 160) rfl, effectOf, hall, length_toHex, msbBits_length]
  rfl

/-- Settles O27: HEXIN reads TOHEX's 40 characters, which are digits and parse to D's bits. -/
theorem hexinRestoresRenderedDigest : Obligations.HexinRestoresRenderedDigest := by
  intro s t ht u hL hbuf
  obtain rfl := Host.Outcome.next.inj ((exec_tohex_all s).symm.trans ht)
  have hlen : (toHex (msbBits s.D)).length = 40 := by rw [length_toHex, msbBits_length]
  have htext : hexinText u = toHex (msbBits s.D) := by
    refine hexinText_eq (by omega) (by rw [hL, hlen]; rfl) fun c hc => ?_
    exact (hbuf ⟨c.val, by omega⟩).trans (by rw [getElem_hexoutImage, List.getElem?_eq_getElem hc, Option.getD_some])
  obtain ⟨ds, hdigits, -⟩ := toHex_eq_map (msbBits s.D)
  have haccept : hexinError u = none := by
    have hvalues := hexDigitValues_hexDigit ds
    rw [← hdigits] at hvalues
    refine hexinError_of_digits (by rw [hL]; decide) (vs := ds.map BitVec.toNat) ?_
    rwa [htext, stripHexPrefix_of_digits hvalues]
  rw [exec_of_accepted (i := .hexin) haccept, effectOf, htext, hexToBits160_toHex, ofMsbBits_msbBits]

end Sys2Proof.Machine
end

section
/-! PROOFS. The control commands (43_control): no check refuses NOP or CLRERR, so each does what its pseudocode says. -/

namespace Sys2Proof.Machine

/-- R220: no check refuses NOP, and its effect is the state it started from. -/
theorem exec_nop (s : State) : exec .nop s = .next s :=
  exec_of_accepted (i := .nop) rfl

/-- R221: no check refuses CLRERR, and its effect is a write to ERR alone. -/
theorem exec_clrerr (s : State) : exec .clrerr s = .next { s with err := .none } :=
  exec_of_accepted (i := .clrerr) rfl

/-- Settles O29: both commands are accepted in every state, and neither touches a register beside ERR. -/
theorem controlCommands : Obligations.ControlCommands :=
  fun s => ⟨exec_nop s, exec_clrerr s⟩

end Sys2Proof.Machine
end

section
/-! PROOFS. The errors (60_exceptions): which check fails when, what a command does to ERR, and that no command's checks
or effect read it. -/

namespace Sys2Proof.Machine

/-! ## Which check fails when (R245 to R247) -/

/-- ABSB and ABSY are out of sequence in IDLE, ABSORBED and SQUEEZED (R245). -/
theorem absorbError_eq_some_iff {s : State} {e : ErrCode} :
    absorbError s = some e ↔ e = .seq ∧ (s.phase = .idle ∨ s.phase = .absorbed ∨ s.phase = .squeezed) := by
  rw [absorbError_eq]
  cases s.phase <;> simp [eq_comm]

/-- FINAL is out of sequence in IDLE, ABSORBING and SQUEEZED (R245). -/
theorem finalError_eq_some_iff {s : State} {e : ErrCode} :
    finalError s = some e ↔ e = .seq ∧ (s.phase = .idle ∨ s.phase = .absorbing ∨ s.phase = .squeezed) := by
  rw [finalError_eq]
  cases s.phase <;> simp [eq_comm]

/-- TOHEX's only check is of its length (R246). -/
theorem tohexError_eq_some_iff {n : Nat} {e : ErrCode} :
    tohexError n = some e ↔ e = .badlen ∧ (n = 0 ∨ 160 < n) := by
  simp [tohexError, digestBitCount, and_comm, eq_comm]

/-- The text HEXIN would parse holds a character that is no hex digit (R247). -/
def State.HexinTextBad (s : State) : Prop :=
  ∃ c ∈ stripHexPrefix (hexinText s), ∀ v, ¬ HexDigitValue c v

/-- HEXIN accepts a text of at most 64 characters that are all digits after the prefix. -/
theorem hexinError_eq_none {s : State} (hlen : s.hexinLen.toNat ≤ 64) (h : ¬ s.HexinTextBad) : hexinError s = none := by
  have hshort : ¬ hexinMax < s.hexinLen.toNat := Nat.not_lt.2 hlen
  rw [hexinError, if_neg hshort, if_pos]
  refine List.all_eq_true.2 fun c hc => hexVal?_isSome_iff.2 ?_
  by_contra hdigit
  exact h ⟨c, hc, not_exists.1 hdigit⟩

/-- HEXIN checks the length first, and the characters only of a text that is short enough (R249). -/
theorem hexinError_eq_some_iff {s : State} {e : ErrCode} :
    hexinError s = some e ↔
      (e = .badlen ∧ 64 < s.hexinLen.toNat) ∨ (e = .badhex ∧ s.hexinLen.toNat ≤ 64 ∧ s.HexinTextBad) := by
  by_cases hlong : 64 < s.hexinLen.toNat
  · simp [hexinError_eq_badlen hlong, hlong, eq_comm]
  · have hlen : s.hexinLen.toNat ≤ 64 := Nat.not_lt.1 hlong
    by_cases hbad : s.HexinTextBad
    · simp [hexinError_eq_badhex hlen hbad, hlong, hlen, hbad, eq_comm]
    · simp [hexinError_eq_none hlen hbad, hlong, hbad]

/-- The command is an absorption or FINAL in a phase that does not allow it (R245). -/
def OutOfSequence (i : Instr) (s : State) : Prop :=
  ((∃ b l, i = .absb b l) ∨ ∃ y l, i = .absy y l) ∧
      (s.phase = .idle ∨ s.phase = .absorbed ∨ s.phase = .squeezed) ∨
    i = .final ∧ (s.phase = .idle ∨ s.phase = .absorbing ∨ s.phase = .squeezed)

/-- The command is TOHEX or HEXIN with a length that it does not take (R246). -/
def LengthBad (i : Instr) (s : State) : Prop :=
  (∃ n, i = .tohex n ∧ (n = 0 ∨ 160 < n)) ∨ (i = .hexin ∧ 64 < s.hexinLen.toNat)

/-- The command is HEXIN on a text that is short enough but not all digits (R247). -/
def TextBad (i : Instr) (s : State) : Prop :=
  i = .hexin ∧ s.hexinLen.toNat ≤ 64 ∧ s.HexinTextBad

/-- Which error a command's checks answer, and when (R245 to R247). -/
theorem acceptError_eq_some_iff {i : Instr} {s : State} {e : ErrCode} :
    acceptError i s = some e ↔
      (e = .seq ∧ OutOfSequence i s) ∨ (e = .badlen ∧ LengthBad i s) ∨ (e = .badhex ∧ TextBad i s) := by
  simp only [OutOfSequence, LengthBad, TextBad]
  cases i with
  | absb b l => simp [acceptError, absorbError_eq_some_iff]
  | absy y l => simp [acceptError, absorbError_eq_some_iff]
  | final => simp [acceptError, finalError_eq_some_iff]
  | tohex n => simp [acceptError, tohexError_eq_some_iff]
  | hexin => simp [acceptError, hexinError_eq_some_iff]
  | nop | init | adv _ | xorin _ | sqz1 | clrerr => simp [acceptError]

theorem acceptError_eq_seq_iff {i : Instr} {s : State} : acceptError i s = some .seq ↔ OutOfSequence i s := by
  simp [acceptError_eq_some_iff]

theorem acceptError_eq_badlen_iff {i : Instr} {s : State} : acceptError i s = some .badlen ↔ LengthBad i s := by
  simp [acceptError_eq_some_iff]

theorem acceptError_eq_badhex_iff {i : Instr} {s : State} : acceptError i s = some .badhex ↔ TextBad i s := by
  simp [acceptError_eq_some_iff]

/-- A check never answers ERR_NONE, and ERR_BUSY and ERR_BADOP are the CMD write's own (R243, R244). -/
theorem acceptError_ne_some {e : ErrCode} (he : e = .none ∨ e = .busy ∨ e = .badop) (i : Instr) (s : State) :
    acceptError i s ≠ some e := by
  rw [Ne, acceptError_eq_some_iff]
  rcases he with rfl | rfl | rfl <;> simp

/-! ## What a command does to ERR (R242, R251) -/

/-- Absorbing neither reads nor writes ERR. -/
theorem absorbBits_with_err (bits : List Bool) (last : Bool) (s : State) (e : ErrCode) :
    absorbBits bits last { s with err := e } = { absorbBits bits last s with err := e } := by
  induction bits generalizing s with
  | nil => rfl
  | cons b rest ih =>
    cases rest with
    | nil => rfl
    | cons c rest => exact ih (absorbBit b false s)

/-- No effect reads ERR, and only CLRERR's writes it (R242, R251). -/
theorem effectOf_with_err (i : Instr) (s : State) (e : ErrCode) :
    effectOf i { s with err := e } = { effectOf i s with err := if i = .clrerr then .none else e } := by
  cases i with
  | absy y last => simp [effectOf, absorbBits_with_err]
  | nop | init | adv _ | xorin _ | sqz1 | absb _ _ | final | tohex _ | hexin | clrerr => rfl

/-- ERR after an accepted command. -/
theorem effectOf_err (i : Instr) (s : State) : (effectOf i s).err = if i = .clrerr then .none else s.err :=
  congrArg State.err (effectOf_with_err i s s.err)

section
variable {i : Instr} {s t : State} (hs : s.err = .none) (h : exec i s = .next t)
include hs h

/-- From a state without an error, ERR after a command tells what its checks at acceptance answer (R245 to R247). -/
theorem acceptError_of_exec : acceptError i s = if t.err = .none then none else some t.err := by
  rcases exec_cases h with ⟨e, ha, rfl⟩ | ⟨ha, rfl⟩
  · have he : e ≠ .none := by
      rintro rfl
      exact acceptError_ne_some (.inl rfl) i s ha
    rw [ha, raiseError_err, hs, firstError_none, if_neg he]
  · rw [ha, effectOf_err, hs, ite_self, if_pos rfl]

/-- From a state without an error, a command records an error exactly if its checks answer it. -/
theorem err_eq_iff_of_exec {e : ErrCode} (he : e ≠ .none) : t.err = e ↔ acceptError i s = some e := by
  rw [acceptError_of_exec hs h]
  split_ifs with hnone
  · simp [hnone, he.symm]
  · exact (Option.some_inj).symm

end

/-! ## The obligations about errors -/

/-- Settles O30: ERR after the command is its checks' answer, and `acceptError_eq_some_iff` says when each is given. -/
theorem errorConditions : Obligations.ErrorConditions := by
  intro i s hs
  obtain ⟨t, ht⟩ := exec_answers i s
  have hraised : ∀ e, e ≠ .none → (t.err = e ↔ acceptError i s = some e) := fun _ => err_eq_iff_of_exec hs ht
  refine ⟨t, ht, ?_, ?_, ?_, ?_, ?_, acceptError_of_exec hs ht⟩
  · exact (hraised .seq (by decide)).trans acceptError_eq_seq_iff
  · exact (hraised .badlen (by decide)).trans acceptError_eq_badlen_iff
  · exact (hraised .badhex (by decide)).trans acceptError_eq_badhex_iff
  · exact (hraised .busy (by decide)).not.2 (acceptError_ne_some (.inr (.inl rfl)) i s)
  · exact (hraised .badop (by decide)).not.2 (acceptError_ne_some (.inr (.inr rfl)) i s)

/-- Settles O31: a refused command only raises its error, and an accepted one has its effect, whose ERR is
`effectOf_err`. -/
theorem errorsArePreciseAndSticky : Obligations.ErrorsArePreciseAndSticky := by
  intro i s
  cases ha : acceptError i s with
  | some e => exact ⟨_, exec_of_refused ha, fun e' he => by rw [Option.some.inj he], nofun⟩
  | none => exact ⟨_, exec_of_accepted ha, nofun, fun _ => effectOf_err i s⟩

/-- Settles O32: neither the checks nor the effect reads ERR. -/
theorem errorDoesNotBlock : Obligations.ErrorDoesNotBlock := by
  intro i s e
  have haccept : acceptError i { s with err := e } = acceptError i s := acceptError_congr rfl rfl rfl i
  rw [exec_eq_checked i s, exec_eq_checked i { s with err := e }, haccept, effectOf_with_err i s e]
  cases acceptError i s with
  | some code => exact ⟨raiseError code s, firstError e code, rfl, rfl⟩
  | none => exact ⟨effectOf i s, _, rfl, rfl⟩

end Sys2Proof.Machine
end

section
/-! PROOFS. Reset and the command lifecycle (70_reset_and_hazards): the reset input, a CMD write of any word, the
completion of a pending command, and the hazard of a forgotten LAST. -/

namespace Sys2Proof.Machine

/-! ## The reset input (R280) -/

theorem hostTurn_reset {s : State} {rest : List HostOp} (ho : s.hostOps = .reset :: rest) :
    hostTurn s = .next (platformReset { s with hostOps := rest }) := by
  simp only [hostTurn, ho]

theorem atReset_platformReset (s : State) : (platformReset s).AtReset := rfl

/-- Settles O46: unless the engine completes a command the step is the host's turn, and what the reset input keeps is
the host's side, which `block` blanks. -/
theorem resetAbandonsPendingCommand : Obligations.ResetAbandonsPendingCommand := by
  intro s rest ho hp
  have hturn : ∀ w, s.pending ≠ some ⟨w, 0⟩ := by
    rcases hp with h | ⟨p, d, h⟩ <;> simp [h]
  obtain ⟨p, hstep⟩ := step_eq_hostTurn hturn
  exact ⟨_, hstep.trans (hostTurn_reset ho), atReset_platformReset _, rfl, rfl, rfl⟩

/-! ## A CMD write of any word that decodes (R249, R283) -/

section
variable {s : State} {w : Word} {i : Instr} {rest : List HostOp} (hp : s.pending = none)
  (ho : s.hostOps = .write (Config.base + 0x000) 4 w :: rest) (hd : decode w = .ok i)
include hp ho hd

/-- A CMD write of a command that fails its own checks records the first failing one's error at once (R242, R249). -/
theorem step_write_cmd_of_failing_check {e : ErrCode} (ha : acceptError i s = some e) :
    step s = .next { s with hostOps := rest, err := if s.err = .none then e else s.err } := by
  have hidle : { s with hostOps := rest }.busy = false := busy_of_none hp
  have hacc : acceptError i { s with hostOps := rest } = some e := (acceptError_congr rfl rfl rfl i).trans ha
  simp only [step_write_cmd hp ho, presentCommand, hidle, hd, hacc, raiseError, firstError_eq_ite, Bool.false_eq_true,
    if_false]

/-- A CMD write of a command that passes its checks makes the word pending (R283). -/
theorem step_write_cmd_of_accepted (ha : acceptError i s = none) :
    ∃ d, step s = .next { s with hostOps := rest, pending := some ⟨w, d⟩, draws := s.draws + 1 } := by
  have hidle : { s with hostOps := rest }.busy = false := busy_of_none hp
  have hacc : acceptError i { s with hostOps := rest } = none := (acceptError_congr rfl rfl rfl i).trans ha
  refine ⟨Config.latency s.draws, ?_⟩
  simp only [step_write_cmd hp ho, presentCommand, hidle, hd, hacc, Bool.false_eq_true, if_false]

end

/-- Settles O47: a busy block refuses the write as any other (`busyWritesRefused`); an idle one decodes the word, and
the command's checks decide. -/
theorem commandWriteLifecycle : Obligations.CommandWriteLifecycle := by
  intro s w rest ho
  refine ⟨fun p d hp => ?_, fun hp => ⟨fun e hd => ?_, fun i hd => ⟨fun e ha => ?_, fun ha => ?_⟩⟩⟩
  · exact busyWritesRefused s p d 0x000 w rest hp ho (.inl rfl)
  · exact step_write_cmd_of_decode_error hd hp ho
  · exact step_write_cmd_of_failing_check hp ho hd ha
  · exact step_write_cmd_of_accepted hp ho hd ha

/-! ## Completion (R283) -/

/-- Settles O50: the host's turns until the completion change its own side only, which no command reads. -/
theorem pendingCommandCompletes : Obligations.PendingCommandCompletes := by
  intro s w d i rest hp hd ho
  obtain ⟨t, ht⟩ := exec_answers i { s with pending := none }
  obtain ⟨replies, draws, u, hu, hrun⟩ := runSteps_pending hp ho
  have hexec := exec_withHost s.hostOps replies draws ht
  obtain rfl := Host.Outcome.next.inj (hu.symm.trans ((engineComplete_of_decode_ok hd _).trans hexec))
  exact ⟨t, _, ht, hrun, rfl, ho⟩

/-! ## A forgotten LAST (R285) -/

/-- What every command of a list keeps, the list keeps. -/
theorem execAll_keeps {P : State → Prop} {is : List Instr}
    (hkeep : ∀ i ∈ is, ∀ s t, P s → exec i s = .next t → P t) {s : State} (hs : P s) :
    ∃ t, execAll is s = .next t ∧ P t := by
  induction is generalizing s with
  | nil => exact ⟨s, rfl, hs⟩
  | cons i is ih =>
    obtain ⟨hi, his⟩ := List.forall_mem_cons.1 hkeep
    obtain ⟨t, ht⟩ := exec_answers i s
    simpa only [execAll, ht] using ih his (hi s t hs ht)

/-- Only INIT and a message bit with LAST lead out of ABSORBING. -/
theorem exec_keeps_absorbing {i : Instr}
    (hi : i ≠ .init ∧ (∀ b, i ≠ .absb b true) ∧ ∀ y, i ≠ .absy y true) {s t : State} (hs : s.phase = .absorbing)
    (h : exec i s = .next t) : t.phase = .absorbing := by
  obtain ⟨hinit, hbit, hbyte⟩ := hi
  by_contra hmoved
  rcases phaseMoves i s t h (hs ▸ hmoved) with ⟨hi, -⟩ | ⟨-, hready, -⟩ | ⟨⟨b, hi⟩ | ⟨y, hi⟩, -⟩ | ⟨-, hfrom, -⟩
  · exact hinit hi
  · simp [hs] at hready
  · exact hbit b hi
  · exact hbyte y hi
  · simp [hs] at hfrom

/-- Settles O37: the phase is kept command by command, and in ABSORBING FINAL is out of sequence. -/
theorem forgottenLastNeedsInit : Obligations.ForgottenLastNeedsInit := by
  intro is s hs hcmds
  obtain ⟨t, ht, hphase⟩ := execAll_keeps (P := (·.phase = .absorbing))
    (fun i hi _ _ => exec_keeps_absorbing (hcmds i hi)) hs
  exact ⟨t, ht, hphase, exec_of_seq (i := .final) (finalError_eq_seq (.inr (.inl hphase)))⟩

/-! ## The launch premises (R291) -/

theorem ready_of_exec_init {s t : State} (hq : s.Quiet) (he : s.NoErr) (h : exec .init s = .next t) : t.Ready := by
  obtain rfl := Host.Outcome.next.inj ((exec_init s).symm.trans h)
  exact ⟨hq, he, rfl, rfl, rfl⟩

theorem State.AtReset.quiet {s : State} (h : s.AtReset) : s.Quiet := congrArg State.pending h

theorem State.AtReset.noErr {s : State} (h : s.AtReset) : s.NoErr := congrArg State.err h

/-- Settles O54: INIT writes no pending command and no error, and the reset state has neither. -/
theorem launchPremises : Obligations.LaunchPremises :=
  ⟨fun s hq he => ⟨_, exec_init s, ready_of_exec_init hq he (exec_init s)⟩, fun _ h => ⟨h.quiet, h.noErr⟩⟩

end Sys2Proof.Machine
end
